-- ==== Sys2Proof/Word.lean ====
section
/-! DEFINITION. The widths of the CHIP-8 core (rules R7, R10 and R51 of spec/): plain names for bit vectors, no operation. -/

namespace Sys2Proof

/-- A `u8`: a byte of memory, a general register, a timer, an `nn` immediate (R10). -/
abbrev Byte := BitVec 8

/-- A `u16`: an instruction word, PC, I, a return address, the 16 keys (R10). -/
abbrev Word := BitVec 16

/-- A `u12`: the `nnn` address field (R51). -/
abbrev Addr12 := BitVec 12

/-- A `u4`: the `n` field, and the index of a key (R51). -/
abbrev Nibble := BitVec 4

/-- A register index, the `x` or `y` field: every value 0x0-0xF names a register (R51, R52). -/
abbrev Reg := BitVec 4

end Sys2Proof
end

