-- ==== Sys2Proof/Config.lean ====
section
/-! DEFINITION. What the source fixes (rule R7 of spec/00_scope.md), the types of the parameters of rule R8 and of the
block's transactions (rule R32), and the two free values: the random draw of rule R84 and the order of rule R115. The
parameters' values for this hardware stand in Sys2Proof/Machine/Font.lean. -/

namespace Sys2Proof

/-- Memory is 4096 bytes, addresses 0x000-0xFFF (R7, R18). -/
def Config.memSize : Nat := 0x1000

/-- The first address of the font region 0x050-0x09F (R7, R29). -/
def Config.fontBase : Nat := 0x050

/-- 16 glyphs of 5 bytes: the font region holds 80 bytes (R7, R29). -/
def Config.fontSize : Nat := 80

/-- The program load address and entry point (R7, R122). -/
def Config.programBase : Nat := 0x200

/-- The longest ROM `init` accepts (R8, R121). -/
def Config.romMax : Nat := 3584

/-- The 80 glyph bytes, `FONT[0]` to `FONT[79]` (R8, R29). -/
abbrev Font := Vector Byte 80

/-- The parameters that the model takes as arguments (R8), but `ROM`, which is the argument of `init`. -/
structure Params where
  /-- `STACK_DEPTH`, the call stack's capacity in return addresses (R23) -/
  stackDepth : Nat
  /-- `FONT`, the bytes that initialisation places at 0x050-0x09F (R29) -/
  font       : Font
  deriving DecidableEq, Repr

/-- The transactions by which the block's three agents act (R32, R118): the core's `step`, the timer engine's `tick`, the
host's `set_keys` and `init`. -/
inductive Machine.Transaction where
  | step
  | tick
  | setKeys (k : Word)
  | init (rom : List Byte)
  deriving DecidableEq, Repr, Inhabited

/-- FREE VALUE (R84, decision D18; notes/assumptions/2.md): the random byte that the `k`-th RND of a run draws.
It has no body, so nothing can be proved about it: a theorem about it holds for every sequence of draws. -/
opaque Config.randomByte : Nat → Byte

/-- FREE VALUE (R115, decision D17; notes/assumptions/1.md): the transaction that the host and the timer engine make the
`k`-th one of a run. It has no body, so a theorem about it holds for every order of transactions, without end. -/
opaque Config.transactionAt : Nat → Machine.Transaction

end Sys2Proof
end

