-- ==== Sys2Proof/Syntax.lean ====
section
/-! DEFINITION. The instruction set: one constructor for each of the 34 rows of rule R53 (spec/30_encoding.md),
with the operand fields of rule R51 that the row's pattern names. -/

namespace Sys2Proof

/-- The 34 instructions of rule R53. Every operand field has exactly its width, so every term is an instruction
some word spells (R52: every register index, immediate, count and address is legal). -/
inductive Instr where
  /-- 00E0 `CLS` (R92) -/
  | cls
  /-- 00EE `RET` (R63) -/
  | ret
  /-- 1nnn `JP nnn` (R64) -/
  | jp (nnn : Addr12)
  /-- 2nnn `CALL nnn` (R65) -/
  | call (nnn : Addr12)
  /-- 3xnn `SE Vx, nn` (R66) -/
  | seImm (x : Reg) (nn : Byte)
  /-- 4xnn `SNE Vx, nn` (R67) -/
  | sneImm (x : Reg) (nn : Byte)
  /-- 5xy0 `SE Vx, Vy` (R68) -/
  | seReg (x y : Reg)
  /-- 6xnn `LD Vx, nn` (R73) -/
  | ldImm (x : Reg) (nn : Byte)
  /-- 7xnn `ADD Vx, nn` (R74) -/
  | addImm (x : Reg) (nn : Byte)
  /-- 8xy0 `LD Vx, Vy` (R75) -/
  | ldReg (x y : Reg)
  /-- 8xy1 `OR Vx, Vy` (R76) -/
  | orReg (x y : Reg)
  /-- 8xy2 `AND Vx, Vy` (R77) -/
  | andReg (x y : Reg)
  /-- 8xy3 `XOR Vx, Vy` (R78) -/
  | xorReg (x y : Reg)
  /-- 8xy4 `ADD Vx, Vy` (R79) -/
  | addReg (x y : Reg)
  /-- 8xy5 `SUB Vx, Vy` (R80) -/
  | subReg (x y : Reg)
  /-- 8xy6 `SHR Vx, Vy` (R81) -/
  | shrReg (x y : Reg)
  /-- 8xy7 `SUBN Vx, Vy` (R82) -/
  | subnReg (x y : Reg)
  /-- 8xyE `SHL Vx, Vy` (R83) -/
  | shlReg (x y : Reg)
  /-- 9xy0 `SNE Vx, Vy` (R69) -/
  | sneReg (x y : Reg)
  /-- Annn `LD I, nnn` (R86) -/
  | ldI (nnn : Addr12)
  /-- Bnnn `JP V0, nnn` (R70) -/
  | jpV0 (nnn : Addr12)
  /-- Cxnn `RND Vx, nn` (R84) -/
  | rnd (x : Reg) (nn : Byte)
  /-- Dxyn `DRW Vx, Vy, n` (R93) -/
  | drw (x y : Reg) (n : Nibble)
  /-- Ex9E `SKP Vx` (R101) -/
  | skp (x : Reg)
  /-- ExA1 `SKNP Vx` (R102) -/
  | sknp (x : Reg)
  /-- Fx07 `LD Vx, DT` (R97) -/
  | ldVxDT (x : Reg)
  /-- Fx0A `LD Vx, K` (R103) -/
  | ldVxK (x : Reg)
  /-- Fx15 `LD DT, Vx` (R98) -/
  | ldDTVx (x : Reg)
  /-- Fx18 `LD ST, Vx` (R99) -/
  | ldSTVx (x : Reg)
  /-- Fx1E `ADD I, Vx` (R87) -/
  | addI (x : Reg)
  /-- Fx29 `LD F, Vx` (R88) -/
  | ldF (x : Reg)
  /-- Fx33 `LD B, Vx` (R89) -/
  | ldB (x : Reg)
  /-- Fx55 `LD [I], Vx` (R90) -/
  | ldMemVx (x : Reg)
  /-- Fx65 `LD Vx, [I]` (R91) -/
  | ldVxMem (x : Reg)
  deriving DecidableEq, Repr

end Sys2Proof
end

