-- ==== Sys2Proof/Decode.lean ====
section
/-! DEFINITION. The decoder of rule R57, dispatching as rule R54 says, on the fields of rule R51; and after it the encoder,
written from the encodings the instructions' own rules give (R63-R103). -/

namespace Sys2Proof

/-- `op = w[15:12]` (R51). -/
def opField (w : Word) : Nibble := w.extractLsb' 12 4
/-- `x = w[11:8]` (R51). -/
def xField (w : Word) : Reg := w.extractLsb' 8 4
/-- `y = w[7:4]` (R51). -/
def yField (w : Word) : Reg := w.extractLsb' 4 4
/-- `n = w[3:0]` (R51). -/
def nField (w : Word) : Nibble := w.extractLsb' 0 4
/-- `nn = w[7:0]` (R51). -/
def nnField (w : Word) : Byte := w.extractLsb' 0 8
/-- `nnn = w[11:0]` (R51). -/
def nnnField (w : Word) : Addr12 := w.extractLsb' 0 12

/-- Why the decoder answers no instruction. -/
inductive DecodeError where
  /-- No row of the opcode map matches the word (R55). -/
  | invalidOpcode (w : Word)
  /-- Fewer than the two bytes of an instruction were given (R50); a fetch never gives fewer (R40;
  notes/assumptions/16.md). -/
  | truncated
  deriving DecidableEq, Repr

/-- op 0: only `nnn` = 0x0E0 and 0x0EE are defined (R54). -/
def decodeOp0 (w : Word) : Except DecodeError Instr :=
  match nnnField w with
  | 0x0E0#12 => .ok .cls
  | 0x0EE#12 => .ok .ret
  | _ => .error (.invalidOpcode w)

/-- op 5: the secondary discriminant `n` must be 0 (R54). -/
def decodeOp5 (w : Word) : Except DecodeError Instr :=
  match nField w with
  | 0x0#4 => .ok (.seReg (xField w) (yField w))
  | _ => .error (.invalidOpcode w)

/-- op 8: `n` selects the operation, one of 0-7 or E (R54). -/
def decodeOp8 (w : Word) : Except DecodeError Instr :=
  match nField w with
  | 0x0#4 => .ok (.ldReg (xField w) (yField w))
  | 0x1#4 => .ok (.orReg (xField w) (yField w))
  | 0x2#4 => .ok (.andReg (xField w) (yField w))
  | 0x3#4 => .ok (.xorReg (xField w) (yField w))
  | 0x4#4 => .ok (.addReg (xField w) (yField w))
  | 0x5#4 => .ok (.subReg (xField w) (yField w))
  | 0x6#4 => .ok (.shrReg (xField w) (yField w))
  | 0x7#4 => .ok (.subnReg (xField w) (yField w))
  | 0xE#4 => .ok (.shlReg (xField w) (yField w))
  | _ => .error (.invalidOpcode w)

/-- op 9: the secondary discriminant `n` must be 0 (R54). -/
def decodeOp9 (w : Word) : Except DecodeError Instr :=
  match nField w with
  | 0x0#4 => .ok (.sneReg (xField w) (yField w))
  | _ => .error (.invalidOpcode w)

/-- op E: `nn` is 0x9E or 0xA1 (R54). -/
def decodeOpE (w : Word) : Except DecodeError Instr :=
  match nnField w with
  | 0x9E#8 => .ok (.skp (xField w))
  | 0xA1#8 => .ok (.sknp (xField w))
  | _ => .error (.invalidOpcode w)

/-- op F: `nn` is one of the nine low bytes of R54. -/
def decodeOpF (w : Word) : Except DecodeError Instr :=
  match nnField w with
  | 0x07#8 => .ok (.ldVxDT (xField w))
  | 0x0A#8 => .ok (.ldVxK (xField w))
  | 0x15#8 => .ok (.ldDTVx (xField w))
  | 0x18#8 => .ok (.ldSTVx (xField w))
  | 0x1E#8 => .ok (.addI (xField w))
  | 0x29#8 => .ok (.ldF (xField w))
  | 0x33#8 => .ok (.ldB (xField w))
  | 0x55#8 => .ok (.ldMemVx (xField w))
  | 0x65#8 => .ok (.ldVxMem (xField w))
  | _ => .error (.invalidOpcode w)

/-- `decode : u16 -> Instr or InvalidOpcode`, total on all 65536 words; it reads nothing but `w` (R57). The primary
dispatch is on `op` (R54). -/
def decode (w : Word) : Except DecodeError Instr :=
  match opField w with
  | 0x0#4 => decodeOp0 w
  | 0x1#4 => .ok (.jp (nnnField w))
  | 0x2#4 => .ok (.call (nnnField w))
  | 0x3#4 => .ok (.seImm (xField w) (nnField w))
  | 0x4#4 => .ok (.sneImm (xField w) (nnField w))
  | 0x5#4 => decodeOp5 w
  | 0x6#4 => .ok (.ldImm (xField w) (nnField w))
  | 0x7#4 => .ok (.addImm (xField w) (nnField w))
  | 0x8#4 => decodeOp8 w
  | 0x9#4 => decodeOp9 w
  | 0xA#4 => .ok (.ldI (nnnField w))
  | 0xB#4 => .ok (.jpV0 (nnnField w))
  | 0xC#4 => .ok (.rnd (xField w) (nnField w))
  | 0xD#4 => .ok (.drw (xField w) (yField w) (nField w))
  | 0xE#4 => decodeOpE w
  | 0xF#4 => decodeOpF w
  | _ => .error (.invalidOpcode w)

/-- Two bytes make a word, the most significant byte first (R37). -/
def wordOfBytes (hi lo : Byte) : Word := hi.setWidth 16 <<< 8 ||| lo.setWidth 16

/-- The two bytes of a word in the order they are stored, the most significant first (R37, R50). -/
def bytesOfWord (w : Word) : List Byte := [w.extractLsb' 8 8, w.extractLsb' 0 8]

/-- Decode the instruction at the head of a list of bytes, and give the bytes that follow it (R50: always two). -/
def decodeBytes : List Byte → Except DecodeError (Instr × List Byte)
  | hi :: lo :: rest =>
    match decode (wordOfBytes hi lo) with
    | .ok i => .ok (i, rest)
    | .error e => .error e
  | _ => .error .truncated

/-- `base | x << 8 | y << 4`, the encoding of an instruction on two registers (R68, R75-R83). -/
def wordXY (base : Word) (x y : Reg) : Word := base ||| x.setWidth 16 <<< 8 ||| y.setWidth 16 <<< 4

/-- `base | x << 8 | y << 4 | n`, the encoding of Dxyn (R93). -/
def wordXYN (base : Word) (x y : Reg) (n : Nibble) : Word := wordXY base x y ||| n.setWidth 16

/-- `base | x << 8 | nn`, the encoding of an instruction on a register and an immediate (R66, R73). -/
def wordXNN (base : Word) (x : Reg) (nn : Byte) : Word := base ||| x.setWidth 16 <<< 8 ||| nn.setWidth 16

/-- `base | x << 8`, the encoding of an instruction on one register (R87, R97). -/
def wordX (base : Word) (x : Reg) : Word := base ||| x.setWidth 16 <<< 8

/-- `base | nnn`, the encoding of an instruction on an address (R64, R86). -/
def wordNNN (base : Word) (nnn : Addr12) : Word := base ||| nnn.setWidth 16

/-- The word that spells an instruction: its pattern with the fields filled in (R53, R58). -/
def encode : Instr → Word
  | .cls => 0x00E0#16
  | .ret => 0x00EE#16
  | .jp nnn => wordNNN 0x1000 nnn
  | .call nnn => wordNNN 0x2000 nnn
  | .seImm x nn => wordXNN 0x3000 x nn
  | .sneImm x nn => wordXNN 0x4000 x nn
  | .seReg x y => wordXY 0x5000 x y
  | .ldImm x nn => wordXNN 0x6000 x nn
  | .addImm x nn => wordXNN 0x7000 x nn
  | .ldReg x y => wordXY 0x8000 x y
  | .orReg x y => wordXY 0x8001 x y
  | .andReg x y => wordXY 0x8002 x y
  | .xorReg x y => wordXY 0x8003 x y
  | .addReg x y => wordXY 0x8004 x y
  | .subReg x y => wordXY 0x8005 x y
  | .shrReg x y => wordXY 0x8006 x y
  | .subnReg x y => wordXY 0x8007 x y
  | .shlReg x y => wordXY 0x800E x y
  | .sneReg x y => wordXY 0x9000 x y
  | .ldI nnn => wordNNN 0xA000 nnn
  | .jpV0 nnn => wordNNN 0xB000 nnn
  | .rnd x nn => wordXNN 0xC000 x nn
  | .drw x y n => wordXYN 0xD000 x y n
  | .skp x => wordX 0xE09E x
  | .sknp x => wordX 0xE0A1 x
  | .ldVxDT x => wordX 0xF007 x
  | .ldVxK x => wordX 0xF00A x
  | .ldDTVx x => wordX 0xF015 x
  | .ldSTVx x => wordX 0xF018 x
  | .addI x => wordX 0xF01E x
  | .ldF x => wordX 0xF029 x
  | .ldB x => wordX 0xF033 x
  | .ldMemVx x => wordX 0xF055 x
  | .ldVxMem x => wordX 0xF065 x

/-- The word that spec/opcode_table.json numbers `w`, of which it gives `nbits` bits: bit 0 is the word's least
significant bit, and every bit from `nbits` up is 0. -/
def tableWord (nbits w : Nat) : Word := BitVec.ofNat 16 (w % 2 ^ nbits)

/-- What the decoder reads from an instruction whose bits are `w`, numbered as spec/opcode_table.json numbers them: the
word's two bytes as the hardware stores them, given to `decodeBytes`. -/
def decodeTableWord (nbits w : Nat) : Option Instr :=
  match decodeBytes (bytesOfWord (tableWord nbits w)) with
  | .ok (i, _) => some i
  | .error _ => none

end Sys2Proof
end

