-- ==== Sys2Proof/Machine/Font.lean ====
section
/-! DEFINITION. The parameters of rule R8 for this hardware, and what memory holds before anything is written. The glyph
bytes are rule R29's table (spec/10_state.md), which the spec takes from general knowledge, not from its source, so no
statement may rest on them (notes/assumptions/3.md). -/

namespace Sys2Proof.Machine

/-- R29's table: five bytes a glyph, digits 0 to F. -/
def fontTable : List Byte :=
  [0xF0, 0x90, 0x90, 0x90, 0xF0,  0x20, 0x60, 0x20, 0x20, 0x70,
   0xF0, 0x10, 0xF0, 0x80, 0xF0,  0xF0, 0x10, 0xF0, 0x10, 0xF0] ++
  [0x90, 0x90, 0xF0, 0x10, 0x10,  0xF0, 0x80, 0xF0, 0x10, 0xF0,
   0xF0, 0x80, 0xF0, 0x90, 0xF0,  0xF0, 0x10, 0x20, 0x40, 0x40] ++
  [0xF0, 0x90, 0xF0, 0x90, 0xF0,  0xF0, 0x90, 0xF0, 0x10, 0xF0,
   0xF0, 0x90, 0xF0, 0x90, 0x90,  0xE0, 0x90, 0xE0, 0x90, 0xE0] ++
  [0xF0, 0x80, 0x80, 0x80, 0xF0,  0xE0, 0x90, 0x90, 0x90, 0xE0,
   0xF0, 0x80, 0xF0, 0x80, 0xF0,  0xF0, 0x80, 0xF0, 0x80, 0x80]

/-- `FONT` for this hardware (R29, decision D21): the table. -/
def hardwareFont : Font := ⟨fontTable.toArray, rfl⟩

/-- The parameters' values for this hardware (R8, decisions D4 and D21). -/
def hardwareParams : Params := { stackDepth := 16, font := hardwareFont }

/-- `FONT[k]` (R29). -/
def fontByte (font : Font) (k : Nat) : Byte := font.toList.getD k 0

/-- Address `a` lies in the font region 0x050-0x09F (R35). -/
def inFont (a : Nat) : Bool := decide (Config.fontBase ≤ a ∧ a < Config.fontBase + Config.fontSize)

/-- What an address that nothing has written reads as: the initialisation of R30, `FONT` in the font region and zero
elsewhere. -/
def initialByte (font : Font) (a : Nat) : Byte := if inFont a then fontByte font (a - Config.fontBase) else 0

end Sys2Proof.Machine
end

