-- ==== Sys2Proof/Machine/State.lean ====
section
/-! DEFINITION. The state of the core (spec/10_state.md), why it can fault, and the machine right after reset. -/

namespace Sys2Proof.Machine

/-- The four faults of rule R105. A fault is LATCHED IN STATUS (R106) and the core goes on as a faulted core: its ticks, key
updates and `init` still act (R107, R113). So a fault of the spec is a NEXT state here, never the end of a run, and no step
of this machine ends in `Host.Outcome.fault` (notes/assumptions/5.md). -/
inductive Fault where
  /-- Raised by the step that fetches an illegal word (R55). Safe: it is the spec's own effect. -/
  | invalidOpcode
  /-- Raised by 2nnn on a full call stack (R65). Safe: it is the spec's own effect. -/
  | stackOverflow
  /-- Raised by 00EE on an empty call stack (R63). Safe: it is the spec's own effect. -/
  | stackUnderflow
  /-- Raised by a fetch past 0xFFE (R40), by Dxyn, Fx33, Fx55 and Fx65 on a range past 0xFFF (R41), and by Fx33 and Fx55
  on the font region (R36). Safe: it is the spec's own effect. -/
  | addressOutOfRange
  deriving DecidableEq, Repr

/-- Why a step has no meaning. No step of this machine answers with one. -/
inductive Refusal where
  /-- For an arm of `exec` whose instruction has no meaning yet: raised by no arm now. Safe: the machine stops where the
  hardware goes on. -/
  | notModelled (mnemonic : String)
  deriving DecidableEq, Repr

/-- What STATUS records of a fault (R27, R105). -/
structure FaultRecord where
  /-- which of the four faults -/
  kind        : Fault
  /-- the PC of the faulting instruction -/
  fpc         : Word
  /-- the instruction word, none for a fetch fault -/
  finstr      : Option Word
  /-- the address, for an AddressOutOfRange -/
  faddr       : Option Word
  /-- the fault came from the font write protection of R36 -/
  isProtected : Bool
  deriving DecidableEq, Repr

/-- STATUS, the core's execution state (R27). -/
inductive Status where
  /-- the next step fetches and executes an instruction -/
  | running
  /-- an Fx0A is suspended: its `x` field, and the keypad state the core last observed (R103, R104) -/
  | waiting (wx : Reg) (base : Word)
  /-- a fault has halted the core (R106, R107) -/
  | faulted (f : FaultRecord)
  deriving DecidableEq, Repr

/-- The one memory space MEM (R18): the bytes that differ from what an unlisted address reads as, in the canonical form
`Memory.wf` (addresses strictly rising, no entry that says what is read anyway; notes/assumptions/8.md). -/
abbrev Memory := List Host.Cell

/-- The framebuffer FB: 32 rows of 64 single-bit pixels, `fb[r][c]` (R26). -/
abbrev Framebuffer := Vector (Vector Bool 64) 32

/-- Everything the spec gives the machine, and four fields of the model's own: `params`, which no transaction changes,
and `draws`, `schedule` and `turn`, from which the free values are taken. -/
structure State where
  /-- MEM (R18) -/
  mem      : Memory
  /-- V0-VF, 8 bits each (R19) -/
  v        : Vector Byte 16
  /-- I, the index register (R21) -/
  i        : Word
  /-- PC: during a step, the address of the instruction being executed (R22) -/
  pc       : Word
  /-- the call stack, the entry on top first: `S[SP-1]`, ..., `S[0]`; SP is its length (R23) -/
  stack    : List Word
  /-- DT, the delay timer (R24) -/
  dt       : Byte
  /-- ST, the sound timer (R24) -/
  st       : Byte
  /-- KEYS: bit k is set when key k is pressed (R25, R32) -/
  keys     : Word
  /-- FB (R26) -/
  fb       : Framebuffer
  /-- STATUS (R27) -/
  status   : Status
  /-- THE MODEL'S OWN: how many random bytes have been drawn; the next draw is `Config.randomByte draws`
  (notes/assumptions/2.md). -/
  draws    : Nat
  /-- THE MODEL'S OWN: the next transactions, as far as they are known, the next first; past its end each transaction is a
  free value, `Config.transactionAt turn`. It is the order that R115 leaves open (notes/assumptions/1.md). -/
  schedule : List Transaction
  /-- THE MODEL'S OWN: how many transactions have been taken from the free order `Config.transactionAt`
  (notes/assumptions/1.md). -/
  turn     : Nat
  /-- THE MODEL'S OWN: the parameters that R8 makes arguments of the model, STACK_DEPTH and FONT. A claim about every state
  is a claim about every value of them (notes/assumptions/12.md). -/
  params   : Params
  deriving DecidableEq, Repr

/-- A clear framebuffer. -/
def clearFramebuffer : Framebuffer := Vector.replicate 32 (Vector.replicate 64 false)

/-- The machine right after `init` with an empty ROM: the values of R30. Memory lists nothing, because an unlisted address
reads as its initial content (the font, else zero). What the spec decides of it and how a program comes to run from it:
notes/assumptions/4.md and 6.md. -/
def State.reset : State where
  mem := []
  v := Vector.replicate 16 0
  i := 0
  pc := 0x200
  stack := []
  dt := 0
  st := 0
  keys := 0
  fb := clearFramebuffer
  status := .running
  draws := 0
  schedule := []
  turn := 0
  params := hardwareParams

end Sys2Proof.Machine
end

