-- ==== Sys2Proof/Machine/Ops.lean ====
section
/-! DEFINITION. The named operations over memory, registers, PC and the call stack; the address checks of rules R36, R40 and
R41; and raising a fault (rule R106), once for every instruction. -/

namespace Sys2Proof.Machine

/-- What one step answers. -/
abbrev Result := Host.Outcome State Fault Refusal

/-! ### Memory (R12, R18, R35) -/

/-- `MemRead(a, 1)`: the byte at `a` (R12, R44). Every caller checks the address first (R40, R41). -/
def Memory.read (font : Font) (m : Memory) (a : Nat) : Byte :=
  match m with
  | [] => initialByte font a
  | c :: rest => if c.1 = a then c.2 else Memory.read font rest a

/-- Put a cell into its place by address. -/
def insertCell (a : Nat) (b : Byte) : Memory → Memory
  | [] => [(a, b)]
  | c :: rest => if a < c.1 then (a, b) :: c :: rest else c :: insertCell a b rest

/-- `MemWrite(a, 1, b)`: set the byte at `a` (R12). The canonical form is kept: a byte that `a` reads as anyway is not
listed. Every caller checks the address first (R36, R41). -/
def Memory.write (font : Font) (m : Memory) (a : Nat) (b : Byte) : Memory :=
  if b = initialByte font a then m.filter (fun c => c.1 != a)
  else insertCell a b (m.filter (fun c => c.1 != a))

/-- The one-byte reads of a multi-byte access, at ascending addresses (R38). -/
def Memory.readBytes (font : Font) (m : Memory) (a len : Nat) : List Byte :=
  (List.range len).map fun k => Memory.read font m (a + k)

/-- The one-byte writes of a multi-byte access, at ascending addresses (R38). -/
def Memory.writeBytes (font : Font) (m : Memory) (a : Nat) : List Byte → Memory
  | [] => m
  | b :: rest => Memory.writeBytes font (Memory.write font m a b) (a + 1) rest

/-- The canonical form of memory: addresses inside memory and strictly rising, and no entry that an unlisted address reads
as. -/
def Memory.wf (font : Font) : Memory → Bool
  | [] => true
  | c :: rest =>
    decide (c.1 < Config.memSize) && c.2 != initialByte font c.1 && rest.all (fun d => decide (c.1 < d.1)) &&
      Memory.wf font rest

/-- The byte at `a` in a state: MEM as the parameter FONT initialised it (R12, R30). -/
def State.readByte (s : State) (a : Nat) : Byte := Memory.read s.params.font s.mem a

/-- The `len` bytes from `a` on (R38). -/
def State.readBytes (s : State) (a len : Nat) : List Byte := Memory.readBytes s.params.font s.mem a len

/-- `bytes` written from `a` on (R38). -/
def State.writeBytes (s : State) (a : Nat) (bytes : List Byte) : State :=
  { s with mem := Memory.writeBytes s.params.font s.mem a bytes }

/-! ### General registers (R19) -/

/-- The register VF, `V[15]` (R11, R20). -/
def regF : Reg := 0xF

/-- The register V0, which Bnnn reads (R70). -/
def reg0 : Reg := 0x0

/-- `V[r]` (R11). -/
def State.getV (s : State) (r : Reg) : Byte := s.v[r.toNat]'r.isLt

/-- `V[r] <- b` (R11). -/
def State.setV (s : State) (r : Reg) (b : Byte) : State := { s with v := s.v.set r.toNat b r.isLt }

/-- The registers `V[0]..V[x]`, in order (R19, R90). -/
def State.regsUpTo (s : State) (x : Reg) : List Byte := s.v.toList.take (x.toNat + 1)

/-- Write `bytes` to V0, V1, ... (R91). -/
def State.loadRegs (s : State) (bytes : List Byte) : State :=
  { s with v := Vector.ofFn fun r : Fin 16 => bytes.getD r.val s.v[r] }

/-! ### The program counter (R60) -/

/-- `next = PC + 2`, the advance of every instruction that does not set `next` (R60). -/
def State.advance (s : State) : State := { s with pc := s.pc + 2 }

/-- A skip: `next = PC + 4` when the condition holds, else `PC + 2` (R60). -/
def State.skipIf (s : State) (c : Bool) : State := { s with pc := if c then s.pc + 4 else s.pc + 2 }

/-- A jump: `next = target`, not checked until the next fetch (R62). -/
def State.jump (s : State) (target : Word) : State := { s with pc := target }

/-! ### The call stack (R23) -/

/-- `push(v)`: none when SP = STACK_DEPTH, where the spec raises StackOverflow (notes/assumptions/9.md). -/
def State.push (s : State) (ret : Word) : Option State :=
  if s.params.stackDepth ≤ s.stack.length then none else some { s with stack := ret :: s.stack }

/-- `pop()`: none when SP = 0, where the spec raises StackUnderflow. -/
def State.pop (s : State) : Option (Word × State) :=
  match s.stack with
  | [] => none
  | ret :: rest => some (ret, { s with stack := rest })

/-! ### Raising a fault (R106)

There is no return from a fault (R111): only `init` leaves the Faulted state, Sys2Proof/Machine/HostInterface.lean. -/

/-- `raise F(info)`: every write the step planned is discarded, and STATUS latches the fault, its info and the PC of the
faulting instruction (R13, R106). No other state changes: no mode, no vector, no handler (R110). -/
def State.raise (s : State) (kind : Fault) (finstr faddr : Option Word) (isProtected : Bool) : State :=
  { s with status := .faulted (.mk kind s.pc finstr faddr isProtected) }

/-! ### Address checks and data accesses through I (R36, R38, R41, R85) -/

/-- The `len` bytes `I .. I+len-1` run past 0xFFF: the check of R41. Nothing is checked when `len = 0`. -/
def State.rangeFaults (s : State) (len : Nat) : Bool := decide (0 < len ∧ 0xFFF < s.i.toNat + len - 1)

/-- The lowest address of `a .. a+len-1` that lies in the font region, if any (R36). -/
def fontHit (a len : Nat) : Option Nat := ((List.range len).map (a + ·)).find? inFont

/-- R41's fault: `faddr` is 0x1000, the first address outside memory. -/
def State.raiseRange (s : State) (w : Word) : State :=
  s.raise .addressOutOfRange (some w) (some 0x1000) false

/-- R36's fault: `faddr` is the lowest font address of the store's range. -/
def State.raiseFont (s : State) (w : Word) (a : Nat) : State :=
  s.raise .addressOutOfRange (some w) (some (BitVec.ofNat 16 a)) true

/-- Read `len` bytes from I, and go on with them: the range is checked before any byte is read (R41). -/
def loadBytes (w : Word) (len : Nat) (cont : List Byte → State) (s : State) : Result :=
  if s.rangeFaults len then .next (s.raiseRange w)
  else .next (cont (s.readBytes s.i.toNat len))

/-- Store `bytes` from I on, and advance: both checks come before any byte is written, the range check first (R36, R41,
R108). I is left as it is (R85). -/
def storeBytes (w : Word) (bytes : List Byte) (s : State) : Result :=
  if s.rangeFaults bytes.length then .next (s.raiseRange w)
  else
    match fontHit s.i.toNat bytes.length with
    | some a => .next (s.raiseFont w a)
    | none => .next (s.writeBytes s.i.toNat bytes).advance

/-! ### Fetch (R37, R40) -/

/-- The word at PC: two bytes, the most significant first (R37). -/
def State.fetchWord (s : State) : Word :=
  wordOfBytes (s.readByte s.pc.toNat) (s.readByte (s.pc.toNat + 1))

/-- Both bytes at PC are in memory: the check of R40. -/
def State.fetchInside (s : State) : Bool := decide (s.pc.toNat ≤ 0xFFE)

/-- R40's fault: no instruction word, and `faddr` is the first byte of the fetch outside memory. -/
def State.raiseFetch (s : State) : State :=
  s.raise .addressOutOfRange none (some (if 0xFFF < s.pc.toNat then s.pc else 0x1000)) false

/-- R55's fault: the fetched word is illegal. -/
def State.raiseInvalid (s : State) (w : Word) : State := s.raise .invalidOpcode (some w) none false

/-- The state in which the next transaction is a step that fetches the word `w`: the word stands at PC (at the entry point
when PC lies past 0xFFE), STATUS is Running, and the schedule's head is a step. For `State.withFetchWord`. -/
def State.placeWord (s : State) (w : Word) : State :=
  let pc : Word := if s.fetchInside then s.pc else BitVec.ofNat 16 Config.programBase
  { s with
    pc := pc
    status := .running
    mem := Memory.writeBytes s.params.font s.mem pc.toNat (bytesOfWord w)
    schedule :=
      match s.schedule with
      | [] => [.step]
      | .step :: rest => .step :: rest
      | t :: rest => .step :: t :: rest }

end Sys2Proof.Machine
end

