-- ==== Sys2Proof/Machine/Flags.lean ====
section
/-! DEFINITION. The flag computations: each takes operand values and gives the result and the bit that VF receives, computed
exactly and then narrowed (rules R71, R72, R79-R83, R87). -/

namespace Sys2Proof.Machine

/-- `wrap8(v)`: `v mod 256` (R10). -/
def wrap8 (n : Nat) : Byte := BitVec.ofNat 8 n

/-- `mask12(v)`: `v mod 4096`, held in 16 bits (R10, R7). -/
def mask12 (n : Nat) : Word := BitVec.ofNat 16 (n % 4096)

/-- A flag as the byte VF receives: 1 or 0 (R79). -/
def flagByte (c : Bool) : Byte := if c then 1 else 0

/-- 8xy4: the sum modulo 256, and whether it overflowed 8 bits (R79). -/
def addFlag (a b : Byte) : Byte × Bool := (wrap8 (a.toNat + b.toNat), decide (0xFF < a.toNat + b.toNat))

/-- `a - b` modulo 256, and whether there was no borrow, `a >= b` (8xy5: R80; 8xy7 with its operands exchanged: R82). -/
def subFlag (a b : Byte) : Byte × Bool := (wrap8 (a.toNat + 256 - b.toNat), decide (b.toNat ≤ a.toNat))

/-- 8xy6: the value shifted right by one, and the bit shifted out, bit 0 (R81). -/
def shrFlag (b : Byte) : Byte × Bool := (b >>> 1, b.getLsbD 0)

/-- 8xyE: the value shifted left by one, and the bit shifted out, bit 7 (R83). -/
def shlFlag (b : Byte) : Byte × Bool := (b <<< 1, b.getLsbD 7)

/-- Fx1E: the sum masked to 12 bits, and whether it left the 12-bit address space (R87). -/
def indexAddFlag (i : Word) (b : Byte) : Word × Bool := (mask12 (i.toNat + b.toNat), decide (0xFFF < i.toNat + b.toNat))

/-- Write the result to Vx, and then the flag to VF: with x = F, VF ends holding the flag (R72). -/
def State.setResultThenFlag (s : State) (x : Reg) (r : Byte × Bool) : State :=
  (s.setV x r.1).setV regF (flagByte r.2)

end Sys2Proof.Machine
end

