-- ==== Sys2Proof/Machine/Alu.lean ====
section
/-! DEFINITION. Register arithmetic and logic: spec/41_alu.md, rules R71-R84. -/

namespace Sys2Proof.Machine

/-- 6xnn `LD Vx, nn` (R73). -/
def execLdImm (x : Reg) (nn : Byte) (s : State) : Result := .next (s.setV x nn).advance

/-- 7xnn `ADD Vx, nn` (R74): no flag. -/
def execAddImm (x : Reg) (nn : Byte) (s : State) : Result :=
  .next (s.setV x (wrap8 ((s.getV x).toNat + nn.toNat))).advance

/-- 8xy0 `LD Vx, Vy` (R75). -/
def execLdReg (x y : Reg) (s : State) : Result := .next (s.setV x (s.getV y)).advance

/-- 8xy1 `OR Vx, Vy` (R76): no flag. -/
def execOrReg (x y : Reg) (s : State) : Result := .next (s.setV x (s.getV x ||| s.getV y)).advance

/-- 8xy2 `AND Vx, Vy` (R77): no flag. -/
def execAndReg (x y : Reg) (s : State) : Result := .next (s.setV x (s.getV x &&& s.getV y)).advance

/-- 8xy3 `XOR Vx, Vy` (R78): no flag. -/
def execXorReg (x y : Reg) (s : State) : Result := .next (s.setV x (s.getV x ^^^ s.getV y)).advance

/-- 8xy4 `ADD Vx, Vy` (R79): VF is the carry. -/
def execAddReg (x y : Reg) (s : State) : Result :=
  .next (s.setResultThenFlag x (addFlag (s.getV x) (s.getV y))).advance

/-- 8xy5 `SUB Vx, Vy` (R80): Vx - Vy, VF is no-borrow. -/
def execSubReg (x y : Reg) (s : State) : Result :=
  .next (s.setResultThenFlag x (subFlag (s.getV x) (s.getV y))).advance

/-- 8xy6 `SHR Vx, Vy` (R81): the value shifted is Vy. -/
def execShrReg (x y : Reg) (s : State) : Result :=
  .next (s.setResultThenFlag x (shrFlag (s.getV y))).advance

/-- 8xy7 `SUBN Vx, Vy` (R82): Vy - Vx, VF is no-borrow. -/
def execSubnReg (x y : Reg) (s : State) : Result :=
  .next (s.setResultThenFlag x (subFlag (s.getV y) (s.getV x))).advance

/-- 8xyE `SHL Vx, Vy` (R83): the value shifted is Vy. -/
def execShlReg (x y : Reg) (s : State) : Result :=
  .next (s.setResultThenFlag x (shlFlag (s.getV y))).advance

/-- RND with the draw `r` as an argument: `V[x] <- r & nn` (R84). -/
def rndWith (r : Byte) (x : Reg) (nn : Byte) (s : State) : State := (s.setV x (r &&& nn)).advance

/-- Cxnn `RND Vx, nn` (R84): the draw is a free value, a fresh one for each RND (R117). -/
def execRnd (x : Reg) (nn : Byte) (s : State) : Result :=
  .next (rndWith (Config.randomByte s.draws) x nn { s with draws := s.draws + 1 })

end Sys2Proof.Machine
end

