-- ==== Sys2Proof/Machine/Operands.lean ====
section
/-! DEFINITION. The operand forms: how a field or a register's value becomes an address, a target, a key or a coordinate. -/

namespace Sys2Proof.Machine

/-- `nnn` used as a PC or I value: zero-extended, never scaled (R52). -/
def addrOf (nnn : Addr12) : Word := nnn.setWidth 16

/-- The low nibble of a register's value (R88, R100). -/
def lowNibble (b : Byte) : Nibble := b.setWidth 4

/-- The target of Bnnn: `nnn + V[0]`, exact (R70). -/
def indexedTarget (nnn : Addr12) (v0 : Byte) : Word := BitVec.ofNat 16 (nnn.toNat + v0.toNat)

/-- The address of the glyph for the low nibble of a byte: `0x050 + 5 * (b & 0xF)` (R88). -/
def glyphAddress (b : Byte) : Word := BitVec.ofNat 16 (Config.fontBase + 5 * (lowNibble b).toNat)

/-- The three decimal digits of a byte: hundreds, tens, ones (R89). -/
def bcdDigits (b : Byte) : List Byte :=
  [BitVec.ofNat 8 (b.toNat / 100), BitVec.ofNat 8 (b.toNat / 10 % 10), BitVec.ofNat 8 (b.toNat % 10)]

/-- Key `k` is pressed (R25). -/
def State.keyPressed (s : State) (k : Nibble) : Bool := s.keys.getLsbD k.toNat

/-- The key that an instruction on Vx tests: the low nibble of Vx (R100). -/
def State.testedKey (s : State) (x : Reg) : Nibble := lowNibble (s.getV x)

/-- The column of a sprite's origin: `V[x] % 64` (R93). -/
def State.originColumn (s : State) (x : Reg) : Nat := (s.getV x).toNat % 64

/-- The row of a sprite's origin: `V[y] % 32` (R93). -/
def State.originRow (s : State) (y : Reg) : Nat := (s.getV y).toNat % 32

end Sys2Proof.Machine
end

