-- ==== Sys2Proof/Machine/ControlFlow.lean ====
section
/-! DEFINITION. Returns, jumps, calls and the register skips: spec/40_control_flow.md, rules R62-R70. -/

namespace Sys2Proof.Machine

/-- 00EE `RET` (R63): the popped address becomes PC, nothing is added to it; StackUnderflow on an empty stack. -/
def execRet (s : State) : Result :=
  match s.pop with
  | some (ret, t) => .next (t.jump ret)
  | none => .next (s.raise .stackUnderflow (some (encode .ret)) none false)

/-- 1nnn `JP nnn` (R64). -/
def execJp (nnn : Addr12) (s : State) : Result := .next (s.jump (addrOf nnn))

/-- 2nnn `CALL nnn` (R65): push `PC + 2`, then jump; StackOverflow on a full stack. -/
def execCall (nnn : Addr12) (s : State) : Result :=
  match s.push (s.pc + 2) with
  | some t => .next (t.jump (addrOf nnn))
  | none => .next (s.raise .stackOverflow (some (encode (.call nnn))) none false)

/-- 3xnn `SE Vx, nn` (R66). -/
def execSeImm (x : Reg) (nn : Byte) (s : State) : Result := .next (s.skipIf (s.getV x == nn))

/-- 4xnn `SNE Vx, nn` (R67). -/
def execSneImm (x : Reg) (nn : Byte) (s : State) : Result := .next (s.skipIf (s.getV x != nn))

/-- 5xy0 `SE Vx, Vy` (R68). -/
def execSeReg (x y : Reg) (s : State) : Result := .next (s.skipIf (s.getV x == s.getV y))

/-- 9xy0 `SNE Vx, Vy` (R69). -/
def execSneReg (x y : Reg) (s : State) : Result := .next (s.skipIf (s.getV x != s.getV y))

/-- Bnnn `JP V0, nnn` (R70): the offset is V0, and the sum is not masked. -/
def execJpV0 (nnn : Addr12) (s : State) : Result := .next (s.jump (indexedTarget nnn (s.getV reg0)))

end Sys2Proof.Machine
end

