-- ==== Sys2Proof/Machine/Draw.lean ====
section
/-! DEFINITION. Framebuffer clear, sprite draw and the collision detector: spec/43_draw.md, rules R92-R96. The loops are those
of rule R93's pseudocode; the framebuffer and `col` pass through them. -/

namespace Sys2Proof.Machine

/-- The pixel at row `r` and column `c`; outside the framebuffer there is none, and this says false. -/
def pixel (fb : Framebuffer) (r c : Nat) : Bool :=
  if h : r < 32 ∧ c < 64 then (fb[r]'h.1)[c]'h.2 else false

/-- A set sprite bit at row `r` and column `c`: outside the framebuffer it is clipped; inside it inverts the pixel, and a
pixel turned off is a collision (R93, R95). -/
def drawPixel (r c : Nat) (p : Framebuffer × Bool) : Framebuffer × Bool :=
  if h : r < 32 ∧ c < 64 then
    (p.1.set r ((p.1[r]'h.1).set c (!(pixel p.1 r c)) h.2) h.1, p.2 || pixel p.1 r c)
  else p

/-- One sprite row: the byte's bits, the most significant first, at columns `ox`, `ox + 1`, ... (R93). -/
def drawRow (b : Byte) (r ox : Nat) (p : Framebuffer × Bool) : Framebuffer × Bool :=
  (List.range 8).foldl (fun q k => if b.getLsbD (7 - k) then drawPixel r (ox + k) q else q) p

/-- The sprite's rows, at rows `r`, `r + 1`, ... (R93). -/
def drawRows (ox : Nat) : List Byte → Nat → Framebuffer × Bool → Framebuffer × Bool
  | [], _, p => p
  | b :: rest, r, p => drawRows ox rest (r + 1) (drawRow b r ox p)

/-- 00E0 `CLS` (R92). -/
def execCls (s : State) : Result := .next (State.advance { s with fb := clearFramebuffer })

/-- Draw the sprite `bytes` with its origin at V[x] mod 64, V[y] mod 32, then write the collision to VF (R93). -/
def State.drawSprite (s : State) (x y : Reg) (bytes : List Byte) : State :=
  let p := drawRows (s.originColumn x) bytes (s.originRow y) (s.fb, false)
  State.setV { s with fb := p.1 } regF (flagByte p.2)

/-- Dxyn `DRW Vx, Vy, n` (R93): the `n` sprite bytes at I are all read, and range-checked, even when clipped. -/
def execDrw (x y : Reg) (n : Nibble) (s : State) : Result :=
  loadBytes (encode (.drw x y n)) n.toNat (fun bytes => (s.drawSprite x y bytes).advance) s

end Sys2Proof.Machine
end

