-- ==== Sys2Proof/Machine/IndexMemory.lean ====
section
/-! DEFINITION. The index register and memory block transfers: spec/42_index_memory.md, rules R85-R91. -/

namespace Sys2Proof.Machine

/-- Annn `LD I, nnn` (R86). -/
def execLdI (nnn : Addr12) (s : State) : Result := .next (State.advance { s with i := addrOf nnn })

/-- Fx1E `ADD I, Vx` (R87): I is written, and then VF with the 12-bit overflow. -/
def execAddI (x : Reg) (s : State) : Result :=
  .next (State.advance (State.setV { s with i := (indexAddFlag s.i (s.getV x)).1 } regF
    (flagByte (indexAddFlag s.i (s.getV x)).2)))

/-- Fx29 `LD F, Vx` (R88). -/
def execLdF (x : Reg) (s : State) : Result := .next (State.advance { s with i := glyphAddress (s.getV x) })

/-- Fx33 `LD B, Vx` (R89): store the three decimal digits. -/
def execLdB (x : Reg) (s : State) : Result := storeBytes (encode (.ldB x)) (bcdDigits (s.getV x)) s

/-- Fx55 `LD [I], Vx` (R90): store V0..Vx. -/
def execLdMemVx (x : Reg) (s : State) : Result := storeBytes (encode (.ldMemVx x)) (s.regsUpTo x) s

/-- Fx65 `LD Vx, [I]` (R91): load V0..Vx. -/
def execLdVxMem (x : Reg) (s : State) : Result :=
  loadBytes (encode (.ldVxMem x)) (x.toNat + 1) (fun bytes => (s.loadRegs bytes).advance) s

end Sys2Proof.Machine
end

