-- ==== Sys2Proof/Machine/TimerKeypad.lean ====
section
/-! DEFINITION. Timer access, key skips and the key wait (spec/44_timer_keypad.md, rules R97-R104), and the timer engine's
countdown (spec/60_exceptions.md, rule R113). -/

namespace Sys2Proof.Machine

/-- Fx07 `LD Vx, DT` (R97). -/
def execLdVxDT (x : Reg) (s : State) : Result := .next (s.setV x s.dt).advance

/-- Fx15 `LD DT, Vx` (R98). -/
def execLdDTVx (x : Reg) (s : State) : Result := .next (State.advance { s with dt := s.getV x })

/-- Fx18 `LD ST, Vx` (R99). -/
def execLdSTVx (x : Reg) (s : State) : Result := .next (State.advance { s with st := s.getV x })

/-- Ex9E `SKP Vx` (R101). -/
def execSkp (x : Reg) (s : State) : Result := .next (s.skipIf (s.keyPressed (s.testedKey x)))

/-- ExA1 `SKNP Vx` (R102). -/
def execSknp (x : Reg) (s : State) : Result := .next (s.skipIf (!s.keyPressed (s.testedKey x)))

/-- Fx0A `LD Vx, K` (R103): the step that fetches it only enters the Waiting state; PC does not advance. -/
def execLdVxK (x : Reg) (s : State) : Result := .next { s with status := .waiting x s.keys }

/-- The lowest key that is pressed now and was released when last observed, if any (R104). -/
def newKey (keys base : Word) : Option Nat := (List.range 16).find? (keys &&& ~~~base).getLsbD

/-- A step in state `Waiting(wx, base)` (R104): a new press completes the Fx0A; without one, releases are remembered. -/
def keyWaitPoll (wx : Reg) (base : Word) (s : State) : State :=
  match newKey s.keys base with
  | some k => State.advance { s.setV wx (BitVec.ofNat 8 k) with status := .running }
  | none => { s with status := .waiting wx s.keys }

/-- One timer's count: down by exactly 1 while positive, held at 0 (R113). -/
def countDown (b : Byte) : Byte := if 0 < b.toNat then b - 1 else b

/-- `tick()`, the timer engine's transaction, in every STATUS (R113). -/
def State.tick (s : State) : State := { s with dt := countDown s.dt, st := countDown s.st }

end Sys2Proof.Machine
end

