-- ==== Sys2Proof/Machine/HostInterface.lean ====
section
/-! DEFINITION. What the host does to the core and reads from it: `init`, `set_keys`, the outputs and the STATUS register's
layout (rules R28, R32, R33, R117, R121). -/

namespace Sys2Proof.Machine

/-- `set_keys(k)` (R32): all 16 keys are written at once, nothing else. -/
def State.setKeys (s : State) (k : Word) : State := { s with keys := k }

/-- `init(ROM)`, the only reset (R121): none when the ROM is too long and is refused (notes/assumptions/7.md). It replaces
all state of the core (R123). The model's own four fields are not the core's: the parameters stay, and so do the counters
and the schedule, so that later draws and transactions are fresh. -/
def State.init (s : State) (rom : List Byte) : Option State :=
  if romFits rom then
    some { State.reset with
      mem := Memory.writeBytes s.params.font [] Config.programBase rom
      draws := s.draws
      schedule := s.schedule
      turn := s.turn
      params := s.params }
  else none

/-- `sound_on` (R33). -/
def State.soundOn (s : State) : Bool := decide (0 < s.st.toNat)

/-- The block's outputs, views of the state that the host reads between transactions (R33). -/
structure Outputs where
  fb      : Framebuffer
  soundOn : Bool
  status  : Status
  deriving DecidableEq, Repr

/-- Reading the outputs (R32, R33): no effect on the state. -/
def State.outputs (s : State) : Outputs := { fb := s.fb, soundOn := s.soundOn, status := s.status }

/-- FAULT_KIND's codes 1-4 (R28, R105). -/
def Fault.code : Fault → BitVec 3
  | .invalidOpcode => 1
  | .stackOverflow => 2
  | .stackUnderflow => 3
  | .addressOutOfRange => 4

/-- The STATUS fields of R28, before they are packed. -/
structure StatusFields where
  state            : BitVec 2
  waitX            : BitVec 4
  waitBase         : BitVec 16
  faultKind        : BitVec 3
  faultPc          : BitVec 16
  faultInstr       : BitVec 16
  faultInstrValid  : BitVec 1
  faultAddr        : BitVec 16
  faultProtected   : BitVec 1
  deriving DecidableEq, Repr

/-- The value of every STATUS field (R28): a field that does not apply is 0. -/
def Status.fields : Status → StatusFields
  | .running => ⟨0, 0, 0, 0, 0, 0, 0, 0, 0⟩
  | .waiting wx base => ⟨1, wx, base, 0, 0, 0, 0, 0, 0⟩
  | .faulted f =>
    ⟨2, 0, 0, f.kind.code, f.fpc, f.finstr.getD 0, BitVec.ofBool f.finstr.isSome, f.faddr.getD 0,
      BitVec.ofBool f.isProtected⟩

/-- The fields packed into one 75-bit register, each at the bits R28 gives it. -/
def StatusFields.pack (f : StatusFields) : BitVec 75 :=
  f.state.setWidth 75 ||| f.waitX.setWidth 75 <<< 2 ||| f.waitBase.setWidth 75 <<< 6 ||| f.faultKind.setWidth 75 <<< 22
    ||| f.faultPc.setWidth 75 <<< 25 ||| f.faultInstr.setWidth 75 <<< 41 ||| f.faultInstrValid.setWidth 75 <<< 57
    ||| f.faultAddr.setWidth 75 <<< 58 ||| f.faultProtected.setWidth 75 <<< 74

/-- STATUS as the 75-bit register a realisation exposes (R28). -/
def Status.toBits (st : Status) : BitVec 75 := st.fields.pack

/-- What a transaction returns to the host (R32). -/
inductive Reply where
  | ran
  | waiting
  | fault (f : FaultRecord)
  | accepted
  | refused
  | nothing
  deriving DecidableEq, Repr

/-- What a `step` returns, read off the STATUS it leaves (R59). -/
def Status.stepReply : Status → Reply
  | .running => .ran
  | .waiting _ _ => .waiting
  | .faulted f => .fault f

/-- What a transaction returns, given the state it leaves (R32). -/
def Transaction.reply (t : Transaction) (after : State) : Reply :=
  match t with
  | .step => after.status.stepReply
  | .tick => .nothing
  | .setKeys _ => .nothing
  | .init rom => if romFits rom then .accepted else .refused

end Sys2Proof.Machine
end

