-- ==== Sys2Proof/Machine/Transactions.lean ====
section
/-! DEFINITION. The block's transactions (rules R32, R59): the core's step, and which transaction comes next. -/

namespace Sys2Proof.Machine

/-- The Running branch of R59: check the fetch, fetch, decode, execute, each check before the next (R108). -/
def runningStep (s : State) : Result :=
  if s.fetchInside then
    match decode s.fetchWord with
    | .ok i => exec i s
    | .error _ => .next (s.raiseInvalid s.fetchWord)
  else .next s.raiseFetch

/-- `step(r)`, the decoder/dispatcher's transaction (R59): a faulted core changes nothing (R107), a waiting one polls the
keypad (R104). -/
def stepTransaction (s : State) : Result :=
  match s.status with
  | .faulted _ => .next s
  | .waiting wx base => .next (keyWaitPoll wx base s)
  | .running => runningStep s

/-- The transaction that comes next: the schedule's head, and past the schedule's end a free value (R115). -/
def State.nextTransaction (s : State) : Transaction :=
  match s.schedule with
  | [] => Config.transactionAt s.turn
  | t :: _ => t

/-- The state once the next transaction is taken: off the schedule, or, past its end, off the free order. -/
def State.takeTransaction (s : State) : State :=
  { s with schedule := s.schedule.tail, turn := if s.schedule.isEmpty then s.turn + 1 else s.turn }

/-- One transaction of the block, whole (R32, R43). An `init` whose ROM is too long is refused and changes nothing
(R121). -/
def transact (t : Transaction) (s : State) : Result :=
  match t with
  | .step => stepTransaction s
  | .tick => .next s.tick
  | .setKeys k => .next (s.setKeys k)
  | .init rom => .next ((s.init rom).getD s)

end Sys2Proof.Machine
end

