-- ==== Sys2Proof/Machine/Step.lean ====
section
/-! DEFINITION. One step of the machine: the block's next transaction, whole. Transactions are atomic and totally ordered,
and which order occurs is open (rules R43, R115). -/

namespace Sys2Proof.Machine

/-- Perform the next transaction, whichever it is. -/
def step (s : State) : Host.Outcome State Fault Refusal := transact s.nextTransaction s.takeTransaction

/-- `s` with the instruction of spec/opcode_table.json's bits `w` stored where the next step fetches (two bytes at PC, the
most significant first), and whatever that fetch needs: `State.placeWord`. -/
def State.withFetchWord (s : State) (nbits w : Nat) : State := s.placeWord (tableWord nbits w)

end Sys2Proof.Machine
end

