-- ==== Sys2Proof/Safety.lean ====
section
/-! DEFINITION. The terms in which claims speak: what an instruction leaves unchanged, the invariant of rule R126, a safe
state, and the end of a run (rule R125). -/

namespace Sys2Proof.Machine

/-- The pieces of state other than the general registers. -/
inductive Component where
  | mem | i | pc | stack | dt | st | keys | fb | status | draws | schedule | params
  deriving DecidableEq, Repr

/-- A piece of state is the same in `t` as in `s`; memory, byte by byte through the model's read; the schedule with the
counter that goes on past its end. -/
def Component.same (c : Component) (s t : State) : Prop :=
  match c with
  | .mem => ∀ a, t.readByte a = s.readByte a
  | .i => t.i = s.i
  | .pc => t.pc = s.pc
  | .stack => t.stack = s.stack
  | .dt => t.dt = s.dt
  | .st => t.st = s.st
  | .keys => t.keys = s.keys
  | .fb => t.fb = s.fb
  | .status => t.status = s.status
  | .draws => t.draws = s.draws
  | .schedule => t.schedule = s.schedule ∧ t.turn = s.turn
  | .params => t.params = s.params

/-- The frame: from `s` to `t` nothing changes but the registers `regs` and the pieces of state `parts`. -/
def UnchangedExcept (regs : List Reg) (parts : List Component) (s t : State) : Prop :=
  (∀ r, r ∉ regs → t.getV r = s.getV r) ∧ ∀ c, c ∉ parts → c.same s t

/-- How many bytes at I an instruction accesses: `n`, 3 or `x + 1` (R38, R85); none for an instruction that accesses none. -/
def instrAccessLength : Instr → Option Nat
  | .drw _ _ n => some n.toNat
  | .ldB _ => some 3
  | .ldMemVx x => some (x.toNat + 1)
  | .ldVxMem x => some (x.toNat + 1)
  | _ => none

/-- The store-class instructions, Fx33 and Fx55 (R35). -/
def instrIsStore : Instr → Bool
  | .ldB _ => true
  | .ldMemVx _ => true
  | _ => false

/-- The instructions whose rule sets `next`: the skips, the jumps, CALL, RET and Fx0A (R60). -/
def instrSetsNext : Instr → Bool
  | .ret => true
  | .jp _ => true
  | .call _ => true
  | .seImm _ _ => true
  | .sneImm _ _ => true
  | .seReg _ _ => true
  | .sneReg _ _ => true
  | .jpV0 _ => true
  | .skp _ => true
  | .sknp _ => true
  | .ldVxK _ => true
  | _ => false

/-- The core's next step executes `i`: the next transaction is a step, STATUS is Running, both bytes at PC are in
memory, and the word there spells `i` (R40, R59). -/
def State.runs (s : State) (i : Instr) : Prop :=
  s.nextTransaction = .step ∧ s.status = .running ∧ s.pc.toNat ≤ 0xFFE ∧ decode s.fetchWord = .ok i

/-- The words that rule R55 lists as illegal. -/
def isListedIllegal (w : Word) : Prop :=
  (opField w = 0x0 ∧ nnnField w ≠ 0x0E0 ∧ nnnField w ≠ 0x0EE) ∨
  (opField w = 0x5 ∧ nField w ≠ 0x0) ∨
  (opField w = 0x8 ∧ nField w ∈ [0x8, 0x9, 0xA, 0xB, 0xC, 0xD, 0xF]) ∨
  (opField w = 0x9 ∧ nField w ≠ 0x0) ∨
  (opField w = 0xE ∧ nnField w ∉ [0x9E, 0xA1]) ∨
  (opField w = 0xF ∧ nnField w ∉ [0x07, 0x0A, 0x15, 0x18, 0x1E, 0x29, 0x33, 0x55, 0x65])

/-- The `len` bytes at I lie inside memory (R41). -/
def State.insideMemory (s : State) (len : Nat) : Prop := s.i.toNat + len ≤ 0x1000

/-- The `len` bytes at I meet the font region 0x050-0x09F (R36). -/
def State.meetsFont (s : State) (len : Nat) : Prop := 0 < len ∧ s.i.toNat ≤ 0x09F ∧ 0x050 < s.i.toNat + len

/-- `s` with STATUS holding a fault raised at its PC, and every other piece of state as it is in `s` (R106). -/
def State.latched (s : State) (kind : Fault) (finstr faddr : Option Word) (isProtected : Bool) : State :=
  { s with status := .faulted (.mk kind s.pc finstr faddr isProtected) }

/-- Key `k` is pressed in `keys` and was released in `base` (R104). -/
def pressedSince (keys base : Word) (k : Nat) : Prop := keys.getLsbD k = true ∧ base.getLsbD k = false

/-- The sprite `bytes` with its origin at row `oy`, column `ox` has a set bit at row `r`, column `c` (R93): row `oy + j` is
byte j, and column `ox + k` its bit `7 - k`. -/
def spriteBit (bytes : List Byte) (oy ox r c : Nat) : Bool :=
  decide (oy ≤ r ∧ ox ≤ c ∧ c < ox + 8) && (bytes.getD (r - oy) 0).getLsbD (7 - (c - ox))

/-- The invariant of R126, and the canonical form of memory. -/
structure State.Inv (s : State) : Prop where
  /-- I ≤ 0xFFF -/
  index_inside : s.i.toNat ≤ 0xFFF
  /-- SP ≤ STACK_DEPTH -/
  stack_fits : s.stack.length ≤ s.params.stackDepth
  /-- every stack entry is at most 0x1000 -/
  returns_inside : ∀ a ∈ s.stack, a.toNat ≤ 0x1000
  /-- MEM[0x050..0x09F] = FONT -/
  font_intact : ∀ k, k < Config.fontSize → s.readByte (Config.fontBase + k) = fontByte s.params.font k
  /-- PC ≤ 0x10FE -/
  pc_bounded : s.pc.toNat ≤ 0x10FE
  /-- in state Waiting(wx, b), the word at PC is an Fx0A with x = wx -/
  waits_at_key_wait : ∀ wx b, s.status = .waiting wx b → s.pc.toNat ≤ 0xFFE ∧ s.fetchWord = encode (.ldVxK wx)
  /-- memory is in its canonical form -/
  mem_wf : Memory.wf s.params.font s.mem = true

/-- STATUS is Faulted (R27). -/
def Status.isFaulted : Status → Bool
  | .faulted _ => true
  | _ => false

/-- A safe state: no fault has halted the core (R105). -/
def State.safe (s : State) : Bool := !s.status.isFaulted

/-- A run has ended normally: STATUS is Running and the word at PC is a jump to itself (R125). -/
def State.endedNormally (s : State) : Prop :=
  s.status = .running ∧ s.pc.toNat ≤ 0xFFE ∧ s.fetchWord = 0x1000#16 ||| s.pc

end Sys2Proof.Machine
end

