-- ==== Sys2Proof/Certificates/Slice0/Obligations.lean ====
section
/-! DEFINITION. The statements for the provers, each from a numbered rule of spec/. In every statement `s` is the state before
and `t` the state after; `UnchangedExcept` is the frame (Sys2Proof/Safety.lean). -/

open Sys2Proof Sys2Proof.Machine

/-! ### Encoding (spec/30_encoding.md) -/

/-- R57, R58: for every instruction, with every operand at every value its field admits, the decoder reads it back from
its own encoding. -/
def Obligations.DecodeOfEncodeIsTheInstruction : Prop :=
  ∀ i : Instr, i.wellFormed = true ∧ decode (encode i) = .ok i

/-- R57: decode is total; it returns the unique row of the opcode map that the word matches, with the word's own fields,
and otherwise InvalidOpcode. -/
def Obligations.DecodeIsTheUniqueRow : Prop :=
  ∀ w, (∃ i, decode w = .ok i ∧ opcodeMap.filter (·.spells w) = [i.row] ∧ encode i = w) ∨
    (decode w = .error (.invalidOpcode w) ∧ opcodeMap.filter (·.spells w) = [])

/-- R55: the illegal words are exactly those of the rule's list. -/
def Obligations.IllegalWordsAreTheListed : Prop :=
  ∀ w, decode w = .error (.invalidOpcode w) ↔ isListedIllegal w

/-- R61: the spec's own decode examples. -/
def Obligations.SpecDecodeExamples : Prop :=
  decode 0xD125 = .ok (.drw 1 2 5) ∧ decode 0x8AB6 = .ok (.shrReg 0xA 0xB) ∧ decode 0xF365 = .ok (.ldVxMem 3) ∧
  decode 0x0123 = .error (.invalidOpcode 0x0123) ∧ decode 0x5001 = .error (.invalidOpcode 0x5001) ∧
  decode 0xE19F = .error (.invalidOpcode 0xE19F)

/-! ### The step (spec/30_encoding.md §5, spec/20_memory.md §3, spec/60_exceptions.md §1) -/

/-- R59: a step of a running core runs the instruction at PC: `step` is `exec` of it, on the state with the transaction
taken off the order of transactions (the order is the model's own, notes/assumptions/1.md). -/
def Obligations.StepRunsTheDecodedInstruction : Prop :=
  ∀ s i, s.runs i → step s = exec i s.takeTransaction

/-- The instruction that `withFetchWord` places is the one the next step runs (the model's own operation, for rules R37 and
R59). -/
def Obligations.PlacedWordRunsNext : Prop :=
  ∀ (s : State) w i, w < 0x10000 → decodeTableWord 16 w = some i →
    step (s.withFetchWord 16 w) = exec i (s.withFetchWord 16 w).takeTransaction

/-- R37: instruction fetch is big-endian. -/
def Obligations.FetchIsBigEndian : Prop :=
  ∀ s : State, s.fetchWord.toNat =
    (s.readByte s.pc.toNat).toNat * 256 + (s.readByte (s.pc.toNat + 1)).toNat

/-- R40: a fetch past 0xFFE latches AddressOutOfRange without an instruction word; the check is made at fetch alone: a
step from PC ≤ 0xFFE never raises it, whatever PC it writes. -/
def Obligations.FetchRangeFault : Prop :=
  (∀ s, s.nextTransaction = .step → s.status = .running → 0xFFE < s.pc.toNat →
    step s = .next (s.takeTransaction.latched .addressOutOfRange
      none (some (if 0xFFF < s.pc.toNat then s.pc else 0x1000)) false)) ∧
  (∀ s t f, s.nextTransaction = .step → s.status = .running → s.pc.toNat ≤ 0xFFE → step s = .next t →
    t.status = .faulted f → f.finstr ≠ none)

/-- R55: the step that fetches an illegal word latches InvalidOpcode with the word, and changes no other state. -/
def Obligations.IllegalWordFault : Prop :=
  ∀ s e, s.nextTransaction = .step → s.status = .running → s.pc.toNat ≤ 0xFFE → decode s.fetchWord = .error e →
    step s = .next (s.takeTransaction.latched .invalidOpcode
      (some s.fetchWord) none false)

/-- R106: a fault is precise. A step that ends faulted kept every other piece of state, recorded the PC and the word of
the faulting instruction, and returns the fault to the host. -/
def Obligations.FaultsArePrecise : Prop :=
  ∀ s t f, s.nextTransaction = .step → s.status.isFaulted = false → step s = .next t → t.status = .faulted f →
    t = { s.takeTransaction with status := .faulted f } ∧ f.fpc = s.pc ∧
    f.finstr = (if s.pc.toNat ≤ 0xFFE then some s.fetchWord else none) ∧ Transaction.step.reply t = .fault f

/-- R105, R108: the four faults have no other cause than the taxonomy's, in the order fetch, decode, own check, and each
records exactly its own info: for a store that meets the font, the lowest font address of its range (R36). -/
def Obligations.FaultsHaveOnlyTheirCauses : Prop :=
  ∀ s t f, s.nextTransaction = .step → s.status = .running → step s = .next t → t.status = .faulted f →
    (0xFFE < s.pc.toNat ∧
      f = .mk .addressOutOfRange s.pc none (some (if 0xFFF < s.pc.toNat then s.pc else 0x1000)) false) ∨
    ((∃ e, decode s.fetchWord = .error e) ∧ s.pc.toNat ≤ 0xFFE ∧
      f = .mk .invalidOpcode s.pc (some s.fetchWord) none false) ∨
    (∃ nnn, s.runs (.call nnn) ∧ s.params.stackDepth ≤ s.stack.length ∧
      f = .mk .stackOverflow s.pc (some s.fetchWord) none false) ∨
    (s.runs .ret ∧ s.stack = [] ∧ f = .mk .stackUnderflow s.pc (some s.fetchWord) none false) ∨
    (∃ i len, s.runs i ∧ instrAccessLength i = some len ∧ 0 < len ∧ 0xFFF < s.i.toNat + len - 1 ∧
      f = .mk .addressOutOfRange s.pc (some s.fetchWord) (some 0x1000) false) ∨
    (∃ i len a, s.runs i ∧ instrIsStore i = true ∧ instrAccessLength i = some len ∧ s.insideMemory len ∧
      s.i.toNat ≤ a ∧ a < s.i.toNat + len ∧ 0x050 ≤ a ∧ a ≤ 0x09F ∧
      (∀ b, s.i.toNat ≤ b → b < a → ¬ (0x050 ≤ b ∧ b ≤ 0x09F)) ∧
      f = .mk .addressOutOfRange s.pc (some s.fetchWord) (some (BitVec.ofNat 16 a)) true)

/-- R107: a faulted core stays faulted: a step changes nothing and returns the same fault, ticks and key updates still
act, only `init` leaves the state, and it is never a normal end. -/
def Obligations.FaultedCoreStaysFaulted : Prop :=
  ∀ s f, s.status = .faulted f →
    (s.nextTransaction = .step →
      step s = .next s.takeTransaction ∧ Transaction.step.reply s.takeTransaction = .fault f) ∧
    (s.nextTransaction = .tick → step s = .next s.takeTransaction.tick) ∧
    (∀ k, s.nextTransaction = .setKeys k → step s = .next { s.takeTransaction with keys := k }) ∧
    (∀ t, (∀ rom, s.nextTransaction ≠ .init rom) → step s = .next t → t.status = .faulted f) ∧
    ¬ s.endedNormally

/-- No step of the machine stops it: every transaction completes, from every state. That a fault ends no run, being a next
state, is the model's reading of rules R106, R113 and R121, notes/assumptions/5.md. And no transaction changes the
parameters of R8, which the model holds in its state (notes/assumptions/12.md). -/
def Obligations.EveryStepCompletes : Prop :=
  ∀ s, ∃ t, step s = .next t ∧ t.params = s.params

/-! ### The invariant and reset (spec/70_reset_and_hazards.md) -/

/-- R126: every transaction keeps the properties the rule lists (and the canonical form of the model's memory). -/
def Obligations.EveryStepKeepsTheInvariant : Prop :=
  ∀ s t : State, s.Inv → step s = .next t → t.Inv

/-- R126, "from init onward": the properties hold right after reset. -/
def Obligations.ResetMeetsTheInvariant : Prop := State.reset.Inv

/-- R30, R122: the values right after reset with an empty ROM (PC and the values of the stack, timers, keys, framebuffer and
STATUS are the spec's decisions D2 and D3); and reset is `init` of the empty ROM, the model's choice
(notes/assumptions/4.md). STACK_DEPTH is 16, the value of R8 and R23 for this hardware (the spec's decision D4); that the
state holds it is the model's choice (notes/assumptions/12.md). The memory clause is R30's for addresses up to 0xFFF; that
the model's read says 0 past 0xFFF, where no step reads, is the model's choice (notes/assumptions/8.md). -/
def Obligations.ResetValues : Prop :=
  (∀ r, State.reset.getV r = 0) ∧ State.reset.i = 0 ∧ State.reset.pc = 0x200 ∧ State.reset.stack = [] ∧
  State.reset.dt = 0 ∧ State.reset.st = 0 ∧ State.reset.keys = 0 ∧ (∀ r c, pixel State.reset.fb r c = false) ∧
  State.reset.status = .running ∧ State.reset.params.stackDepth = 16 ∧
  (∀ a, State.reset.readByte a = if 0x050 ≤ a ∧ a ≤ 0x09F then fontByte State.reset.params.font (a - 0x050) else 0) ∧
  State.reset.init [] = some State.reset

/-- R121, R30: `init(ROM)`, accepted when the ROM is at most 3584 bytes, leaves the reset state with the ROM at 0x200, for
every FONT; a longer ROM is refused. That a refused `init` leaves the whole state as it was is the model's choice,
notes/assumptions/7.md: the rule says only that the core is not initialised. -/
def Obligations.InitLoadsTheRom : Prop :=
  ∀ s rom, s.nextTransaction = .init rom →
    (rom.length ≤ 3584 →
      ∃ t, step s = .next t ∧ (Transaction.init rom).reply t = .accepted ∧
        (∀ r, t.getV r = 0) ∧ t.i = 0 ∧ t.pc = 0x200 ∧ t.stack = [] ∧ t.dt = 0 ∧ t.st = 0 ∧ t.keys = 0 ∧
        (∀ r c, pixel t.fb r c = false) ∧ t.status = .running ∧
        (∀ k, k < 80 → t.readByte (0x050 + k) = fontByte s.params.font k) ∧
        (∀ k (h : k < rom.length), t.readByte (0x200 + k) = rom[k]) ∧
        (∀ a, a < 0x1000 → ¬ (0x050 ≤ a ∧ a ≤ 0x09F) → ¬ (0x200 ≤ a ∧ a < 0x200 + rom.length) →
          t.readByte a = 0)) ∧
    (3584 < rom.length → step s = .next s.takeTransaction ∧ (Transaction.init rom).reply s.takeTransaction = .refused)

/-- R125: from a state that has ended normally, every step returns to the same state (but for the model's own order of
transactions, notes/assumptions/1.md). -/
def Obligations.NormalEndIsAFixedPoint : Prop :=
  ∀ s, s.endedNormally → s.nextTransaction = .step → step s = .next s.takeTransaction

/-! ### Control flow (spec/40_control_flow.md) -/

/-- R63: RET pops the stack into PC, nothing added; StackUnderflow on an empty stack, with nothing else changed. -/
def Obligations.ReturnPopsIntoPc : Prop :=
  encode .ret = 0x00EE ∧
  (∀ s a rest, s.stack = a :: rest →
    ∃ t, exec .ret s = .next t ∧ t.pc = a ∧ t.stack = rest ∧ UnchangedExcept [] [.pc, .stack] s t) ∧
  (∀ s, s.stack = [] →
    exec .ret s = .next (s.latched .stackUnderflow
      (some 0x00EE) none false))

/-- R64: JP sets PC to the zero-extended target and changes nothing else. -/
def Obligations.JumpGoesToTarget : Prop :=
  ∀ nnn s, encode (.jp nnn) = 0x1000 ||| nnn.setWidth 16 ∧
    ∃ t, exec (.jp nnn) s = .next t ∧ t.pc = nnn.setWidth 16 ∧ UnchangedExcept [] [.pc] s t

/-- R65: CALL pushes PC + 2 and jumps; StackOverflow when the stack is full (STACK_DEPTH entries, for every
STACK_DEPTH), with nothing else changed. -/
def Obligations.CallPushesTheNextAddress : Prop :=
  ∀ nnn s, encode (.call nnn) = 0x2000 ||| nnn.setWidth 16 ∧
    (s.stack.length < s.params.stackDepth →
      ∃ t, exec (.call nnn) s = .next t ∧ t.pc = nnn.setWidth 16 ∧ t.stack = (s.pc + 2) :: s.stack ∧
        UnchangedExcept [] [.pc, .stack] s t) ∧
    (s.stack.length = s.params.stackDepth →
      exec (.call nnn) s = .next (s.latched .stackOverflow
        (some (encode (.call nnn))) none false))

/-- R63, R65 (the source's property S5): a call followed by a return restores PC to the instruction after the call, and the
stack. -/
def Obligations.CallThenReturn : Prop :=
  ∀ nnn s, s.stack.length < s.params.stackDepth →
    ∃ t u, exec (.call nnn) s = .next t ∧ exec .ret t = .next u ∧ u.pc = s.pc + 2 ∧ UnchangedExcept [] [.pc] s u

/-- R66, R67: the immediate skips. -/
def Obligations.ImmediateSkips : Prop :=
  ∀ x nn s,
    (encode (.seImm x nn) = 0x3000 ||| x.setWidth 16 <<< 8 ||| nn.setWidth 16 ∧
      ∃ t, exec (.seImm x nn) s = .next t ∧ t.pc = (if s.getV x = nn then s.pc + 4 else s.pc + 2) ∧
        UnchangedExcept [] [.pc] s t) ∧
    (encode (.sneImm x nn) = 0x4000 ||| x.setWidth 16 <<< 8 ||| nn.setWidth 16 ∧
      ∃ t, exec (.sneImm x nn) s = .next t ∧ t.pc = (if s.getV x ≠ nn then s.pc + 4 else s.pc + 2) ∧
        UnchangedExcept [] [.pc] s t)

/-- R68, R69: the register skips; a non-zero low nibble is no skip but an illegal word. -/
def Obligations.RegisterSkips : Prop :=
  ∀ x y s,
    (encode (.seReg x y) = 0x5000 ||| x.setWidth 16 <<< 8 ||| y.setWidth 16 <<< 4 ∧
      (∀ n : Nibble, n ≠ 0 → ∃ w, w = encode (.seReg x y) ||| n.setWidth 16 ∧ decode w = .error (.invalidOpcode w)) ∧
      ∃ t, exec (.seReg x y) s = .next t ∧ t.pc = (if s.getV x = s.getV y then s.pc + 4 else s.pc + 2) ∧
        UnchangedExcept [] [.pc] s t) ∧
    (encode (.sneReg x y) = 0x9000 ||| x.setWidth 16 <<< 8 ||| y.setWidth 16 <<< 4 ∧
      (∀ n : Nibble, n ≠ 0 → ∃ w, w = encode (.sneReg x y) ||| n.setWidth 16 ∧ decode w = .error (.invalidOpcode w)) ∧
      ∃ t, exec (.sneReg x y) s = .next t ∧ t.pc = (if s.getV x ≠ s.getV y then s.pc + 4 else s.pc + 2) ∧
        UnchangedExcept [] [.pc] s t)

/-- R70: JP V0 jumps to the exact sum of the address and V0, not masked. -/
def Obligations.IndexedJumpAddsV0 : Prop :=
  ∀ nnn s, encode (.jpV0 nnn) = 0xB000 ||| nnn.setWidth 16 ∧
    ∃ t, exec (.jpV0 nnn) s = .next t ∧ t.pc.toNat = nnn.toNat + (s.getV 0).toNat ∧ UnchangedExcept [] [.pc] s t

/-- R60: an instruction whose rule does not set `next` advances PC by 2, whenever it does not fault. -/
def Obligations.StraightLineAdvance : Prop :=
  ∀ i s t, instrSetsNext i = false → s.status = .running → exec i s = .next t → t.status = .running →
    t.pc = s.pc + 2

/-! ### ALU and flags (spec/41_alu.md) -/

/-- R73: LD Vx, nn. -/
def Obligations.LoadImmediate : Prop :=
  ∀ x nn s, encode (.ldImm x nn) = 0x6000 ||| x.setWidth 16 <<< 8 ||| nn.setWidth 16 ∧
    ∃ t, exec (.ldImm x nn) s = .next t ∧ t.getV x = nn ∧ t.pc = s.pc + 2 ∧ UnchangedExcept [x] [.pc] s t

/-- R74: ADD Vx, nn adds modulo 256 and records no carry: VF is unaffected unless it is the destination. -/
def Obligations.AddImmediateWithoutCarry : Prop :=
  ∀ x nn s, encode (.addImm x nn) = 0x7000 ||| x.setWidth 16 <<< 8 ||| nn.setWidth 16 ∧
    ∃ t, exec (.addImm x nn) s = .next t ∧ (t.getV x).toNat = ((s.getV x).toNat + nn.toNat) % 256 ∧
      t.pc = s.pc + 2 ∧ UnchangedExcept [x] [.pc] s t

/-- R75, R76, R77, R78: copy, OR, AND and XOR write Vx and no flag. -/
def Obligations.CopyAndLogic : Prop :=
  ∀ x y s,
    (encode (.ldReg x y) = 0x8000 ||| x.setWidth 16 <<< 8 ||| y.setWidth 16 <<< 4 ∧
      ∃ t, exec (.ldReg x y) s = .next t ∧ t.getV x = s.getV y ∧ t.pc = s.pc + 2 ∧
        UnchangedExcept [x] [.pc] s t) ∧
    (encode (.orReg x y) = 0x8001 ||| x.setWidth 16 <<< 8 ||| y.setWidth 16 <<< 4 ∧
      ∃ t, exec (.orReg x y) s = .next t ∧ t.getV x = s.getV x ||| s.getV y ∧ t.pc = s.pc + 2 ∧
        UnchangedExcept [x] [.pc] s t) ∧
    (encode (.andReg x y) = 0x8002 ||| x.setWidth 16 <<< 8 ||| y.setWidth 16 <<< 4 ∧
      ∃ t, exec (.andReg x y) s = .next t ∧ t.getV x = s.getV x &&& s.getV y ∧ t.pc = s.pc + 2 ∧
        UnchangedExcept [x] [.pc] s t) ∧
    (encode (.xorReg x y) = 0x8003 ||| x.setWidth 16 <<< 8 ||| y.setWidth 16 <<< 4 ∧
      ∃ t, exec (.xorReg x y) s = .next t ∧ t.getV x = s.getV x ^^^ s.getV y ∧ t.pc = s.pc + 2 ∧
        UnchangedExcept [x] [.pc] s t)

/-- R79: ADD Vx, Vy: the sum modulo 256, and VF the carry; with x = F, VF ends as the carry (the spec's decision D6). -/
def Obligations.AddSetsCarry : Prop :=
  ∀ x y s, encode (.addReg x y) = 0x8004 ||| x.setWidth 16 <<< 8 ||| y.setWidth 16 <<< 4 ∧
    ∃ t, exec (.addReg x y) s = .next t ∧
      (x ≠ regF → (t.getV x).toNat = ((s.getV x).toNat + (s.getV y).toNat) % 256) ∧
      t.getV regF = (if 0xFF < (s.getV x).toNat + (s.getV y).toNat then 1 else 0) ∧
      t.pc = s.pc + 2 ∧ UnchangedExcept [x, regF] [.pc] s t

/-- R80, R82: SUB Vx, Vy and SUBN Vx, Vy: Vx - Vy and Vy - Vx modulo 256, and VF set when there is no borrow; with x = F, VF
ends as the flag (the spec's decision D6). -/
def Obligations.SubtractionsSetNoBorrow : Prop :=
  ∀ x y s,
    (encode (.subReg x y) = 0x8005 ||| x.setWidth 16 <<< 8 ||| y.setWidth 16 <<< 4 ∧
      ∃ t, exec (.subReg x y) s = .next t ∧
        (x ≠ regF → (t.getV x).toNat = ((s.getV x).toNat + 256 - (s.getV y).toNat) % 256) ∧
        t.getV regF = (if (s.getV y).toNat ≤ (s.getV x).toNat then 1 else 0) ∧
        t.pc = s.pc + 2 ∧ UnchangedExcept [x, regF] [.pc] s t) ∧
    (encode (.subnReg x y) = 0x8007 ||| x.setWidth 16 <<< 8 ||| y.setWidth 16 <<< 4 ∧
      ∃ t, exec (.subnReg x y) s = .next t ∧
        (x ≠ regF → (t.getV x).toNat = ((s.getV y).toNat + 256 - (s.getV x).toNat) % 256) ∧
        t.getV regF = (if (s.getV x).toNat ≤ (s.getV y).toNat then 1 else 0) ∧
        t.pc = s.pc + 2 ∧ UnchangedExcept [x, regF] [.pc] s t)

/-- R81, R83: SHR Vx, Vy and SHL Vx, Vy shift Vy, not Vx, by one into Vx; VF is the bit shifted out, x = F included (the
spec's decisions D5 and D6). -/
def Obligations.ShiftsFromVy : Prop :=
  ∀ x y s,
    (encode (.shrReg x y) = 0x8006 ||| x.setWidth 16 <<< 8 ||| y.setWidth 16 <<< 4 ∧
      ∃ t, exec (.shrReg x y) s = .next t ∧
        (x ≠ regF → (t.getV x).toNat = (s.getV y).toNat / 2) ∧
        (t.getV regF).toNat = (s.getV y).toNat % 2 ∧
        t.pc = s.pc + 2 ∧ UnchangedExcept [x, regF] [.pc] s t) ∧
    (encode (.shlReg x y) = 0x800E ||| x.setWidth 16 <<< 8 ||| y.setWidth 16 <<< 4 ∧
      ∃ t, exec (.shlReg x y) s = .next t ∧
        (x ≠ regF → (t.getV x).toNat = 2 * (s.getV y).toNat % 256) ∧
        (t.getV regF).toNat = (s.getV y).toNat / 128 ∧
        t.pc = s.pc + 2 ∧ UnchangedExcept [x, regF] [.pc] s t)

/-- R84: RND Vx, nn writes the masked draw. The draw is the free value of notes/assumptions/2.md: this holds whatever
`Config.randomByte` is, and each RND takes a draw of its own. -/
def Obligations.RandomIsMaskedDraw : Prop :=
  ∀ x nn s, encode (.rnd x nn) = 0xC000 ||| x.setWidth 16 <<< 8 ||| nn.setWidth 16 ∧
    ∃ t, exec (.rnd x nn) s = .next t ∧ t.getV x = Config.randomByte s.draws &&& nn ∧ t.draws = s.draws + 1 ∧
      t.pc = s.pc + 2 ∧ UnchangedExcept [x] [.pc, .draws] s t

/-! ### Index register and memory (spec/42_index_memory.md, spec/20_memory.md) -/

/-- R86: LD I, nnn. -/
def Obligations.LoadIndex : Prop :=
  ∀ nnn s, encode (.ldI nnn) = 0xA000 ||| nnn.setWidth 16 ∧
    ∃ t, exec (.ldI nnn) s = .next t ∧ t.i = nnn.setWidth 16 ∧ t.pc = s.pc + 2 ∧ UnchangedExcept [] [.i, .pc] s t

/-- R87: ADD I, Vx keeps 12 bits of the sum and sets VF when it left the 12-bit space, else clears it (the spec's decision
D9). -/
def Obligations.AddIndexSetsOverflow : Prop :=
  ∀ x s, encode (.addI x) = 0xF01E ||| x.setWidth 16 <<< 8 ∧
    ∃ t, exec (.addI x) s = .next t ∧ t.i.toNat = (s.i.toNat + (s.getV x).toNat) % 4096 ∧
      t.getV regF = (if 0xFFF < s.i.toNat + (s.getV x).toNat then 1 else 0) ∧
      t.pc = s.pc + 2 ∧ UnchangedExcept [regF] [.i, .pc] s t

/-- R88: LD F, Vx points I at the glyph of the low nibble of Vx. -/
def Obligations.GlyphAddress : Prop :=
  ∀ x s, encode (.ldF x) = 0xF029 ||| x.setWidth 16 <<< 8 ∧
    ∃ t, exec (.ldF x) s = .next t ∧ t.i.toNat = 0x050 + 5 * ((s.getV x).toNat % 16) ∧ t.pc = s.pc + 2 ∧
      UnchangedExcept [] [.i, .pc] s t

/-- R89: LD B, Vx stores the three decimal digits at I, and no other byte; a range past 0xFFF or a range that meets the font
stores nothing (the spec's decisions D11 and D12). -/
def Obligations.StoreDecimalDigits : Prop :=
  ∀ x s, encode (.ldB x) = 0xF033 ||| x.setWidth 16 <<< 8 ∧
    (s.insideMemory 3 → ¬ s.meetsFont 3 →
      ∃ t, exec (.ldB x) s = .next t ∧
        (t.readByte s.i.toNat).toNat = (s.getV x).toNat / 100 ∧
        (t.readByte (s.i.toNat + 1)).toNat = (s.getV x).toNat / 10 % 10 ∧
        (t.readByte (s.i.toNat + 2)).toNat = (s.getV x).toNat % 10 ∧
        (∀ a, a < s.i.toNat ∨ s.i.toNat + 3 ≤ a → t.readByte a = s.readByte a) ∧
        t.pc = s.pc + 2 ∧ UnchangedExcept [] [.mem, .pc] s t) ∧
    (¬ s.insideMemory 3 →
      exec (.ldB x) s = .next (s.latched .addressOutOfRange
        (some (encode (.ldB x))) (some 0x1000) false)) ∧
    (s.insideMemory 3 → s.meetsFont 3 →
      exec (.ldB x) s = .next (s.latched .addressOutOfRange
        (some (encode (.ldB x))) (some (if s.i.toNat < 0x050 then 0x050 else s.i)) true))

/-- R90: LD [I], Vx stores V0..Vx at I, and no other byte, and leaves I; a range past 0xFFF or a range that meets the font
stores nothing (the spec's decisions D11 and D12). -/
def Obligations.StoreRegisters : Prop :=
  ∀ (x : Reg) s, encode (.ldMemVx x) = 0xF055 ||| x.setWidth 16 <<< 8 ∧
    (s.insideMemory (x.toNat + 1) → ¬ s.meetsFont (x.toNat + 1) →
      ∃ t, exec (.ldMemVx x) s = .next t ∧
        (∀ k : Reg, k.toNat ≤ x.toNat → t.readByte (s.i.toNat + k.toNat) = s.getV k) ∧
        (∀ a, a < s.i.toNat ∨ s.i.toNat + (x.toNat + 1) ≤ a → t.readByte a = s.readByte a) ∧
        t.pc = s.pc + 2 ∧ UnchangedExcept [] [.mem, .pc] s t) ∧
    (¬ s.insideMemory (x.toNat + 1) →
      exec (.ldMemVx x) s = .next (s.latched .addressOutOfRange
        (some (encode (.ldMemVx x))) (some 0x1000) false)) ∧
    (s.insideMemory (x.toNat + 1) → s.meetsFont (x.toNat + 1) →
      exec (.ldMemVx x) s = .next (s.latched .addressOutOfRange
        (some (encode (.ldMemVx x))) (some (if s.i.toNat < 0x050 then 0x050 else s.i)) true))

/-- R91: LD Vx, [I] loads V0..Vx from I, and no other register, and leaves I; a range past 0xFFF loads nothing (the spec's
decision D11). -/
def Obligations.LoadRegisters : Prop :=
  ∀ (x : Reg) s, encode (.ldVxMem x) = 0xF065 ||| x.setWidth 16 <<< 8 ∧
    (s.insideMemory (x.toNat + 1) →
      ∃ t, exec (.ldVxMem x) s = .next t ∧
        (∀ k : Reg, k.toNat ≤ x.toNat → t.getV k = s.readByte (s.i.toNat + k.toNat)) ∧
        (∀ k : Reg, x.toNat < k.toNat → t.getV k = s.getV k) ∧
        t.pc = s.pc + 2 ∧ ∀ c, c ∉ [Component.pc] → c.same s t) ∧
    (¬ s.insideMemory (x.toNat + 1) →
      exec (.ldVxMem x) s = .next (s.latched .addressOutOfRange
        (some (encode (.ldVxMem x))) (some 0x1000) false))

/-- R36: a store that meets the font region, inside memory, raises AddressOutOfRange with `protected` and the lowest font
address of its range, and writes nothing (the spec's decision D12). -/
def Obligations.FontStoreFault : Prop :=
  ∀ i s len a, instrIsStore i = true → instrAccessLength i = some len → s.insideMemory len →
    s.i.toNat ≤ a → a < s.i.toNat + len → 0x050 ≤ a → a ≤ 0x09F →
    (∀ b, s.i.toNat ≤ b → b < a → ¬ (0x050 ≤ b ∧ b ≤ 0x09F)) →
    exec i s = .next (s.latched .addressOutOfRange
      (some (encode i)) (some (BitVec.ofNat 16 a)) true)

/-- R41: an access of `len` bytes at I that runs past 0xFFF raises AddressOutOfRange and does nothing else, whatever else
fails; with `len = 0` nothing is checked (the spec's decision D11). -/
def Obligations.AccessRangeFault : Prop :=
  (∀ i s len, instrAccessLength i = some len → 0 < len → 0xFFF < s.i.toNat + len - 1 →
    exec i s = .next (s.latched .addressOutOfRange
      (some (encode i)) (some 0x1000) false)) ∧
  (∀ i s, instrAccessLength i = some 0 → ∃ t, exec i s = .next t ∧ t.status = s.status)

/-- R35, R36: memory changes only by `init` and by Fx33 and Fx55, inside their own range, and never in the font region. -/
def Obligations.OnlyStoresWriteMemory : Prop :=
  ∀ s t a, step s = .next t → t.readByte a ≠ s.readByte a →
    (∃ rom, s.nextTransaction = .init rom) ∨
    (∃ i len, s.runs i ∧ instrIsStore i = true ∧ instrAccessLength i = some len ∧
      s.i.toNat ≤ a ∧ a < s.i.toNat + len ∧ ¬ (0x050 ≤ a ∧ a ≤ 0x09F))

/-- R48: a later fetch from two bytes that Fx55 stored sees the stored word, with nothing in between (the spec's decision
D25). -/
def Obligations.StoredWordIsFetched : Prop :=
  ∀ (x k : Reg) s, k.toNat < x.toNat → s.insideMemory (x.toNat + 1) → ¬ s.meetsFont (x.toNat + 1) →
    ∃ t, exec (.ldMemVx x) s = .next t ∧
      ∀ u : State, u.mem = t.mem → u.params = t.params → u.pc.toNat = s.i.toNat + k.toNat →
        u.fetchWord = wordOfBytes (s.getV k) (s.getV (k + 1))

/-! ### Framebuffer (spec/43_draw.md) -/

/-- R92: CLS clears every pixel and changes nothing else. -/
def Obligations.ClearScreen : Prop :=
  encode .cls = 0x00E0 ∧
  ∀ s, ∃ t, exec .cls s = .next t ∧ (∀ r c, r < 32 → c < 64 → pixel t.fb r c = false) ∧ t.pc = s.pc + 2 ∧
    UnchangedExcept [] [.fb, .pc] s t

/-- R93 with R95: DRW inverts exactly the pixels under the sprite's set bits, the origin reduced modulo 64 and 32 and the
sprite clipped at the edges, and VF is 1 exactly when one of them was set; a range past 0xFFF draws nothing (the spec's
decisions D8 and D11). -/
def Obligations.DrawSprite : Prop :=
  ∀ (x y : Reg) (n : Nibble) s,
    encode (.drw x y n) = 0xD000 ||| x.setWidth 16 <<< 8 ||| y.setWidth 16 <<< 4 ||| n.setWidth 16 ∧
    (n = 0 ∨ s.insideMemory n.toNat →
      ∃ t, exec (.drw x y n) s = .next t ∧
        (∀ r c, r < 32 → c < 64 →
          pixel t.fb r c = (pixel s.fb r c ^^ spriteBit (s.readBytes s.i.toNat n.toNat)
            ((s.getV y).toNat % 32) ((s.getV x).toNat % 64) r c)) ∧
        ((∃ r c, r < 32 ∧ c < 64 ∧ pixel s.fb r c = true ∧ pixel t.fb r c = false) → t.getV regF = 1) ∧
        ((¬ ∃ r c, r < 32 ∧ c < 64 ∧ pixel s.fb r c = true ∧ pixel t.fb r c = false) → t.getV regF = 0) ∧
        t.pc = s.pc + 2 ∧ UnchangedExcept [regF] [.fb, .pc] s t) ∧
    (n ≠ 0 → ¬ s.insideMemory n.toNat →
      exec (.drw x y n) s = .next (s.latched .addressOutOfRange
        (some (encode (.drw x y n))) (some 0x1000) false))

/-- R94 (the source's property S6): the same sprite drawn twice at the same place restores the framebuffer; if the sprite's
pixels were clear before, the second draw sets VF exactly when the sprite has a drawn pixel. The origin registers are
not VF, which the first draw writes. -/
def Obligations.DoubleDrawRestores : Prop :=
  ∀ (x y : Reg) (n : Nibble) s, x ≠ regF → y ≠ regF → (n = 0 ∨ s.insideMemory n.toNat) →
    ∃ t u, exec (.drw x y n) s = .next t ∧ exec (.drw x y n) t = .next u ∧ u.fb = s.fb ∧
      ((∀ r c, r < 32 → c < 64 → spriteBit (s.readBytes s.i.toNat n.toNat)
          ((s.getV y).toNat % 32) ((s.getV x).toNat % 64) r c = true → pixel s.fb r c = false) →
        (u.getV regF = 1 ↔ ∃ r c, r < 32 ∧ c < 64 ∧ spriteBit (s.readBytes s.i.toNat n.toNat)
          ((s.getV y).toNat % 32) ((s.getV x).toNat % 64) r c = true))

/-- R96: the framebuffer changes only inside 00E0 and Dxyn steps (and at `init`). -/
def Obligations.OnlyClearAndDrawWriteFramebuffer : Prop :=
  ∀ s t, step s = .next t → t.fb ≠ s.fb →
    (∃ rom, s.nextTransaction = .init rom) ∨ s.runs .cls ∨ ∃ x y n, s.runs (.drw x y n)

/-! ### Timers and keypad (spec/44_timer_keypad.md, spec/60_exceptions.md §3) -/

/-- R97: LD Vx, DT. -/
def Obligations.ReadDelayTimer : Prop :=
  ∀ x s, encode (.ldVxDT x) = 0xF007 ||| x.setWidth 16 <<< 8 ∧
    ∃ t, exec (.ldVxDT x) s = .next t ∧ t.getV x = s.dt ∧ t.pc = s.pc + 2 ∧ UnchangedExcept [x] [.pc] s t

/-- R98, R99: LD DT, Vx and LD ST, Vx; after the latter `sound_on` holds exactly when Vx > 0. -/
def Obligations.SetTimers : Prop :=
  ∀ x s,
    (encode (.ldDTVx x) = 0xF015 ||| x.setWidth 16 <<< 8 ∧
      ∃ t, exec (.ldDTVx x) s = .next t ∧ t.dt = s.getV x ∧ t.pc = s.pc + 2 ∧ UnchangedExcept [] [.dt, .pc] s t) ∧
    (encode (.ldSTVx x) = 0xF018 ||| x.setWidth 16 <<< 8 ∧
      ∃ t, exec (.ldSTVx x) s = .next t ∧ t.st = s.getV x ∧ (t.soundOn = true ↔ 0 < (s.getV x).toNat) ∧
        t.pc = s.pc + 2 ∧ UnchangedExcept [] [.st, .pc] s t)

/-- R113: a tick decrements each timer by exactly 1 while it is positive, holds it at 0, and changes nothing else, in every
STATUS. -/
def Obligations.TickCountsDown : Prop :=
  ∀ s, s.nextTransaction = .tick →
    ∃ t, step s = .next t ∧ t.dt.toNat = s.dt.toNat - 1 ∧ t.st.toNat = s.st.toNat - 1 ∧
      UnchangedExcept [] [.dt, .st, .schedule] s t

/-- R113 (the source's property S8): after `k` ticks each timer has lost `k`, and never goes below 0. -/
def Obligations.ManyTicksSaturateAtZero : Prop :=
  ∀ k s, (State.tick^[k] s).dt.toNat = s.dt.toNat - k ∧ (State.tick^[k] s).st.toNat = s.st.toNat - k

/-- R126: DT and ST change only by Fx15, Fx18, ticks and `init`, and a tick never increases either. -/
def Obligations.OnlyTimerWritersChangeTimers : Prop :=
  ∀ s t, step s = .next t →
    (t.dt ≠ s.dt → (∃ rom, s.nextTransaction = .init rom) ∨ s.nextTransaction = .tick ∨ ∃ x, s.runs (.ldDTVx x)) ∧
    (t.st ≠ s.st → (∃ rom, s.nextTransaction = .init rom) ∨ s.nextTransaction = .tick ∨ ∃ x, s.runs (.ldSTVx x)) ∧
    (s.nextTransaction = .tick → t.dt.toNat ≤ s.dt.toNat ∧ t.st.toNat ≤ s.st.toNat)

/-- R101, R102 with R100: SKP and SKNP test the key of Vx's low nibble (the spec's decision D13). -/
def Obligations.KeySkips : Prop :=
  ∀ x s,
    (encode (.skp x) = 0xE09E ||| x.setWidth 16 <<< 8 ∧
      ∃ t, exec (.skp x) s = .next t ∧
        t.pc = (if s.keys.getLsbD ((s.getV x).toNat % 16) = true then s.pc + 4 else s.pc + 2) ∧
        UnchangedExcept [] [.pc] s t) ∧
    (encode (.sknp x) = 0xE0A1 ||| x.setWidth 16 <<< 8 ∧
      ∃ t, exec (.sknp x) s = .next t ∧
        t.pc = (if s.keys.getLsbD ((s.getV x).toNat % 16) = false then s.pc + 4 else s.pc + 2) ∧
        UnchangedExcept [] [.pc] s t)

/-- R103: the step that fetches LD Vx, K enters Waiting with the keys as they are, and PC does not advance (the spec's
decision D14). -/
def Obligations.KeyWaitEnters : Prop :=
  ∀ x s, encode (.ldVxK x) = 0xF00A ||| x.setWidth 16 <<< 8 ∧
    ∃ t, exec (.ldVxK x) s = .next t ∧ t.status = .waiting x s.keys ∧ Transaction.step.reply t = .waiting ∧
      UnchangedExcept [] [.status] s t

/-- R104: a step of a waiting core completes on the lowest newly pressed key, and otherwise remembers the keys as they are
(the spec's decision D14). -/
def Obligations.KeyWaitPolls : Prop :=
  ∀ s wx base, s.nextTransaction = .step → s.status = .waiting wx base →
    (∀ k, k < 16 → pressedSince s.keys base k → (∀ j, j < k → ¬ pressedSince s.keys base j) →
      ∃ t, step s = .next t ∧ (t.getV wx).toNat = k ∧ t.pc = s.pc + 2 ∧ t.status = .running ∧
        Transaction.step.reply t = .ran ∧ UnchangedExcept [wx] [.pc, .status, .schedule] s t) ∧
    ((∀ k, k < 16 → ¬ pressedSince s.keys base k) →
      ∃ t, step s = .next t ∧ t.status = .waiting wx s.keys ∧ Transaction.step.reply t = .waiting ∧
        UnchangedExcept [] [.status, .schedule] s t)

/-- R25, R32: `set_keys` writes all 16 keys and nothing else, and no other transaction but `init` changes them. -/
def Obligations.OnlySetKeysWritesKeys : Prop :=
  (∀ s k, s.nextTransaction = .setKeys k →
    ∃ t, step s = .next t ∧ t.keys = k ∧ UnchangedExcept [] [.keys, .schedule] s t) ∧
  (∀ s t, step s = .next t → t.keys ≠ s.keys →
    (∃ rom, s.nextTransaction = .init rom) ∨ ∃ k, s.nextTransaction = .setKeys k)

/-! ### The other registers, and what the host sees (spec/10_state.md) -/

/-- R21: I is written only by Annn, Fx1E and Fx29 (and `init`). -/
def Obligations.OnlyIndexWritersChangeIndex : Prop :=
  ∀ s t, step s = .next t → t.i ≠ s.i →
    (∃ rom, s.nextTransaction = .init rom) ∨ (∃ nnn, s.runs (.ldI nnn)) ∨ (∃ x, s.runs (.addI x)) ∨
      ∃ x, s.runs (.ldF x)

/-- R23, R121: only 2nnn pushes, only 00EE pops, and `init` empties the stack; nothing else changes it. -/
def Obligations.OnlyCallAndReturnChangeStack : Prop :=
  ∀ s t, step s = .next t → t.stack ≠ s.stack →
    (∃ rom, s.nextTransaction = .init rom ∧ t.stack = []) ∨
    (∃ nnn, s.runs (.call nnn) ∧ t.stack = (s.pc + 2) :: s.stack) ∨
    (s.runs .ret ∧ ∃ a, s.stack = a :: t.stack)

/-- R28: STATUS as the 75-bit register, field by field, and its reset value. -/
def Obligations.StatusRegisterLayout : Prop :=
  Status.toBits State.reset.status = 0 ∧
  Status.toBits .running = 0 ∧
  (∀ wx base, (Status.toBits (.waiting wx base)).extractLsb' 0 2 = 1 ∧
    (Status.toBits (.waiting wx base)).extractLsb' 2 4 = wx ∧
    (Status.toBits (.waiting wx base)).extractLsb' 6 16 = base ∧
    (Status.toBits (.waiting wx base)).extractLsb' 22 53 = 0) ∧
  (∀ f : FaultRecord, (Status.toBits (.faulted f)).extractLsb' 0 2 = 2 ∧
    (Status.toBits (.faulted f)).extractLsb' 2 20 = 0 ∧
    (Status.toBits (.faulted f)).extractLsb' 22 3 =
      (match f.kind with
        | .invalidOpcode => 1
        | .stackOverflow => 2
        | .stackUnderflow => 3
        | .addressOutOfRange => 4) ∧
    (Status.toBits (.faulted f)).extractLsb' 25 16 = f.fpc ∧
    (Status.toBits (.faulted f)).extractLsb' 41 16 = f.finstr.getD 0 ∧
    (Status.toBits (.faulted f)).getLsbD 57 = f.finstr.isSome ∧
    (Status.toBits (.faulted f)).extractLsb' 58 16 = f.faddr.getD 0 ∧
    (Status.toBits (.faulted f)).getLsbD 74 = f.isProtected)

/-- R33: the outputs are views of the state. -/
def Obligations.OutputsAreViews : Prop :=
  ∀ s : State, (s.outputs.soundOn = true ↔ 0 < s.st.toNat) ∧ s.outputs.fb = s.fb ∧ s.outputs.status = s.status
end

