-- ==== Sys2Proof/Laws/State.lean ====
section
/-! SUPPORT. One lemma for each field under each named update of State, true by rfl: no later proof unfolds an update. -/

namespace Sys2Proof.Machine

/-! ### setV: writing a general register (R11) -/

@[simp] theorem State.setV_mem (s : State) (r : Reg) (b : Byte) : (s.setV r b).mem = s.mem := rfl
@[simp] theorem State.setV_v (s : State) (r : Reg) (b : Byte) : (s.setV r b).v = s.v.set r.toNat b r.isLt := rfl
@[simp] theorem State.setV_i (s : State) (r : Reg) (b : Byte) : (s.setV r b).i = s.i := rfl
@[simp] theorem State.setV_pc (s : State) (r : Reg) (b : Byte) : (s.setV r b).pc = s.pc := rfl
@[simp] theorem State.setV_stack (s : State) (r : Reg) (b : Byte) : (s.setV r b).stack = s.stack := rfl
@[simp] theorem State.setV_dt (s : State) (r : Reg) (b : Byte) : (s.setV r b).dt = s.dt := rfl
@[simp] theorem State.setV_st (s : State) (r : Reg) (b : Byte) : (s.setV r b).st = s.st := rfl
@[simp] theorem State.setV_keys (s : State) (r : Reg) (b : Byte) : (s.setV r b).keys = s.keys := rfl
@[simp] theorem State.setV_fb (s : State) (r : Reg) (b : Byte) : (s.setV r b).fb = s.fb := rfl
@[simp] theorem State.setV_status (s : State) (r : Reg) (b : Byte) : (s.setV r b).status = s.status := rfl
@[simp] theorem State.setV_draws (s : State) (r : Reg) (b : Byte) : (s.setV r b).draws = s.draws := rfl
@[simp] theorem State.setV_schedule (s : State) (r : Reg) (b : Byte) : (s.setV r b).schedule = s.schedule := rfl
@[simp] theorem State.setV_turn (s : State) (r : Reg) (b : Byte) : (s.setV r b).turn = s.turn := rfl
@[simp] theorem State.setV_params (s : State) (r : Reg) (b : Byte) : (s.setV r b).params = s.params := rfl
@[simp] theorem State.setV_readByte (s : State) (r : Reg) (b : Byte) (q : Nat) : (s.setV r b).readByte q = s.readByte q := rfl

/-! ### loadRegs: loading V0, V1, ... from a list (R91) -/

@[simp] theorem State.loadRegs_mem (s : State) (bytes : List Byte) : (s.loadRegs bytes).mem = s.mem := rfl
@[simp] theorem State.loadRegs_v (s : State) (bytes : List Byte) : (s.loadRegs bytes).v = Vector.ofFn fun r : Fin 16 => bytes.getD r.val s.v[r] := rfl
@[simp] theorem State.loadRegs_i (s : State) (bytes : List Byte) : (s.loadRegs bytes).i = s.i := rfl
@[simp] theorem State.loadRegs_pc (s : State) (bytes : List Byte) : (s.loadRegs bytes).pc = s.pc := rfl
@[simp] theorem State.loadRegs_stack (s : State) (bytes : List Byte) : (s.loadRegs bytes).stack = s.stack := rfl
@[simp] theorem State.loadRegs_dt (s : State) (bytes : List Byte) : (s.loadRegs bytes).dt = s.dt := rfl
@[simp] theorem State.loadRegs_st (s : State) (bytes : List Byte) : (s.loadRegs bytes).st = s.st := rfl
@[simp] theorem State.loadRegs_keys (s : State) (bytes : List Byte) : (s.loadRegs bytes).keys = s.keys := rfl
@[simp] theorem State.loadRegs_fb (s : State) (bytes : List Byte) : (s.loadRegs bytes).fb = s.fb := rfl
@[simp] theorem State.loadRegs_status (s : State) (bytes : List Byte) : (s.loadRegs bytes).status = s.status := rfl
@[simp] theorem State.loadRegs_draws (s : State) (bytes : List Byte) : (s.loadRegs bytes).draws = s.draws := rfl
@[simp] theorem State.loadRegs_schedule (s : State) (bytes : List Byte) : (s.loadRegs bytes).schedule = s.schedule := rfl
@[simp] theorem State.loadRegs_turn (s : State) (bytes : List Byte) : (s.loadRegs bytes).turn = s.turn := rfl
@[simp] theorem State.loadRegs_params (s : State) (bytes : List Byte) : (s.loadRegs bytes).params = s.params := rfl
@[simp] theorem State.loadRegs_readByte (s : State) (bytes : List Byte) (q : Nat) : (s.loadRegs bytes).readByte q = s.readByte q := rfl

/-! ### advance: the normal advance (R60) -/

@[simp] theorem State.advance_mem (s : State) : (s.advance).mem = s.mem := rfl
@[simp] theorem State.advance_v (s : State) : (s.advance).v = s.v := rfl
@[simp] theorem State.advance_i (s : State) : (s.advance).i = s.i := rfl
@[simp] theorem State.advance_pc (s : State) : (s.advance).pc = s.pc + 2 := rfl
@[simp] theorem State.advance_stack (s : State) : (s.advance).stack = s.stack := rfl
@[simp] theorem State.advance_dt (s : State) : (s.advance).dt = s.dt := rfl
@[simp] theorem State.advance_st (s : State) : (s.advance).st = s.st := rfl
@[simp] theorem State.advance_keys (s : State) : (s.advance).keys = s.keys := rfl
@[simp] theorem State.advance_fb (s : State) : (s.advance).fb = s.fb := rfl
@[simp] theorem State.advance_status (s : State) : (s.advance).status = s.status := rfl
@[simp] theorem State.advance_draws (s : State) : (s.advance).draws = s.draws := rfl
@[simp] theorem State.advance_schedule (s : State) : (s.advance).schedule = s.schedule := rfl
@[simp] theorem State.advance_turn (s : State) : (s.advance).turn = s.turn := rfl
@[simp] theorem State.advance_params (s : State) : (s.advance).params = s.params := rfl
@[simp] theorem State.advance_getV (s : State) (q : Reg) : (s.advance).getV q = s.getV q := rfl
@[simp] theorem State.advance_readByte (s : State) (q : Nat) : (s.advance).readByte q = s.readByte q := rfl

/-! ### skipIf: a skip (R60) -/

@[simp] theorem State.skipIf_mem (s : State) (c : Bool) : (s.skipIf c).mem = s.mem := rfl
@[simp] theorem State.skipIf_v (s : State) (c : Bool) : (s.skipIf c).v = s.v := rfl
@[simp] theorem State.skipIf_i (s : State) (c : Bool) : (s.skipIf c).i = s.i := rfl
@[simp] theorem State.skipIf_pc (s : State) (c : Bool) : (s.skipIf c).pc = if c then s.pc + 4 else s.pc + 2 := rfl
@[simp] theorem State.skipIf_stack (s : State) (c : Bool) : (s.skipIf c).stack = s.stack := rfl
@[simp] theorem State.skipIf_dt (s : State) (c : Bool) : (s.skipIf c).dt = s.dt := rfl
@[simp] theorem State.skipIf_st (s : State) (c : Bool) : (s.skipIf c).st = s.st := rfl
@[simp] theorem State.skipIf_keys (s : State) (c : Bool) : (s.skipIf c).keys = s.keys := rfl
@[simp] theorem State.skipIf_fb (s : State) (c : Bool) : (s.skipIf c).fb = s.fb := rfl
@[simp] theorem State.skipIf_status (s : State) (c : Bool) : (s.skipIf c).status = s.status := rfl
@[simp] theorem State.skipIf_draws (s : State) (c : Bool) : (s.skipIf c).draws = s.draws := rfl
@[simp] theorem State.skipIf_schedule (s : State) (c : Bool) : (s.skipIf c).schedule = s.schedule := rfl
@[simp] theorem State.skipIf_turn (s : State) (c : Bool) : (s.skipIf c).turn = s.turn := rfl
@[simp] theorem State.skipIf_params (s : State) (c : Bool) : (s.skipIf c).params = s.params := rfl
@[simp] theorem State.skipIf_getV (s : State) (c : Bool) (q : Reg) : (s.skipIf c).getV q = s.getV q := rfl
@[simp] theorem State.skipIf_readByte (s : State) (c : Bool) (q : Nat) : (s.skipIf c).readByte q = s.readByte q := rfl

/-! ### jump: a jump (R62) -/

@[simp] theorem State.jump_mem (s : State) (a : Word) : (s.jump a).mem = s.mem := rfl
@[simp] theorem State.jump_v (s : State) (a : Word) : (s.jump a).v = s.v := rfl
@[simp] theorem State.jump_i (s : State) (a : Word) : (s.jump a).i = s.i := rfl
@[simp] theorem State.jump_pc (s : State) (a : Word) : (s.jump a).pc = a := rfl
@[simp] theorem State.jump_stack (s : State) (a : Word) : (s.jump a).stack = s.stack := rfl
@[simp] theorem State.jump_dt (s : State) (a : Word) : (s.jump a).dt = s.dt := rfl
@[simp] theorem State.jump_st (s : State) (a : Word) : (s.jump a).st = s.st := rfl
@[simp] theorem State.jump_keys (s : State) (a : Word) : (s.jump a).keys = s.keys := rfl
@[simp] theorem State.jump_fb (s : State) (a : Word) : (s.jump a).fb = s.fb := rfl
@[simp] theorem State.jump_status (s : State) (a : Word) : (s.jump a).status = s.status := rfl
@[simp] theorem State.jump_draws (s : State) (a : Word) : (s.jump a).draws = s.draws := rfl
@[simp] theorem State.jump_schedule (s : State) (a : Word) : (s.jump a).schedule = s.schedule := rfl
@[simp] theorem State.jump_turn (s : State) (a : Word) : (s.jump a).turn = s.turn := rfl
@[simp] theorem State.jump_params (s : State) (a : Word) : (s.jump a).params = s.params := rfl
@[simp] theorem State.jump_getV (s : State) (a : Word) (q : Reg) : (s.jump a).getV q = s.getV q := rfl
@[simp] theorem State.jump_readByte (s : State) (a : Word) (q : Nat) : (s.jump a).readByte q = s.readByte q := rfl

/-! ### raise: raising a fault (R106) -/

@[simp] theorem State.raise_mem (s : State) (k : Fault) (w a : Option Word) (p : Bool) : (s.raise k w a p).mem = s.mem := rfl
@[simp] theorem State.raise_v (s : State) (k : Fault) (w a : Option Word) (p : Bool) : (s.raise k w a p).v = s.v := rfl
@[simp] theorem State.raise_i (s : State) (k : Fault) (w a : Option Word) (p : Bool) : (s.raise k w a p).i = s.i := rfl
@[simp] theorem State.raise_pc (s : State) (k : Fault) (w a : Option Word) (p : Bool) : (s.raise k w a p).pc = s.pc := rfl
@[simp] theorem State.raise_stack (s : State) (k : Fault) (w a : Option Word) (p : Bool) : (s.raise k w a p).stack = s.stack := rfl
@[simp] theorem State.raise_dt (s : State) (k : Fault) (w a : Option Word) (p : Bool) : (s.raise k w a p).dt = s.dt := rfl
@[simp] theorem State.raise_st (s : State) (k : Fault) (w a : Option Word) (p : Bool) : (s.raise k w a p).st = s.st := rfl
@[simp] theorem State.raise_keys (s : State) (k : Fault) (w a : Option Word) (p : Bool) : (s.raise k w a p).keys = s.keys := rfl
@[simp] theorem State.raise_fb (s : State) (k : Fault) (w a : Option Word) (p : Bool) : (s.raise k w a p).fb = s.fb := rfl
@[simp] theorem State.raise_status (s : State) (k : Fault) (w a : Option Word) (p : Bool) : (s.raise k w a p).status = .faulted (.mk k s.pc w a p) := rfl
@[simp] theorem State.raise_draws (s : State) (k : Fault) (w a : Option Word) (p : Bool) : (s.raise k w a p).draws = s.draws := rfl
@[simp] theorem State.raise_schedule (s : State) (k : Fault) (w a : Option Word) (p : Bool) : (s.raise k w a p).schedule = s.schedule := rfl
@[simp] theorem State.raise_turn (s : State) (k : Fault) (w a : Option Word) (p : Bool) : (s.raise k w a p).turn = s.turn := rfl
@[simp] theorem State.raise_params (s : State) (k : Fault) (w a : Option Word) (p : Bool) : (s.raise k w a p).params = s.params := rfl
@[simp] theorem State.raise_getV (s : State) (k : Fault) (w a : Option Word) (p : Bool) (q : Reg) : (s.raise k w a p).getV q = s.getV q := rfl
@[simp] theorem State.raise_readByte (s : State) (k : Fault) (w a : Option Word) (p : Bool) (q : Nat) : (s.raise k w a p).readByte q = s.readByte q := rfl

/-! ### raiseRange: R41's fault -/

@[simp] theorem State.raiseRange_mem (s : State) (w : Word) : (s.raiseRange w).mem = s.mem := rfl
@[simp] theorem State.raiseRange_v (s : State) (w : Word) : (s.raiseRange w).v = s.v := rfl
@[simp] theorem State.raiseRange_i (s : State) (w : Word) : (s.raiseRange w).i = s.i := rfl
@[simp] theorem State.raiseRange_pc (s : State) (w : Word) : (s.raiseRange w).pc = s.pc := rfl
@[simp] theorem State.raiseRange_stack (s : State) (w : Word) : (s.raiseRange w).stack = s.stack := rfl
@[simp] theorem State.raiseRange_dt (s : State) (w : Word) : (s.raiseRange w).dt = s.dt := rfl
@[simp] theorem State.raiseRange_st (s : State) (w : Word) : (s.raiseRange w).st = s.st := rfl
@[simp] theorem State.raiseRange_keys (s : State) (w : Word) : (s.raiseRange w).keys = s.keys := rfl
@[simp] theorem State.raiseRange_fb (s : State) (w : Word) : (s.raiseRange w).fb = s.fb := rfl
@[simp] theorem State.raiseRange_status (s : State) (w : Word) : (s.raiseRange w).status = .faulted (.mk .addressOutOfRange s.pc (some w) (some 0x1000) false) := rfl
@[simp] theorem State.raiseRange_draws (s : State) (w : Word) : (s.raiseRange w).draws = s.draws := rfl
@[simp] theorem State.raiseRange_schedule (s : State) (w : Word) : (s.raiseRange w).schedule = s.schedule := rfl
@[simp] theorem State.raiseRange_turn (s : State) (w : Word) : (s.raiseRange w).turn = s.turn := rfl
@[simp] theorem State.raiseRange_params (s : State) (w : Word) : (s.raiseRange w).params = s.params := rfl
@[simp] theorem State.raiseRange_getV (s : State) (w : Word) (q : Reg) : (s.raiseRange w).getV q = s.getV q := rfl
@[simp] theorem State.raiseRange_readByte (s : State) (w : Word) (q : Nat) : (s.raiseRange w).readByte q = s.readByte q := rfl

/-! ### raiseFont: R36's fault -/

@[simp] theorem State.raiseFont_mem (s : State) (w : Word) (a : Nat) : (s.raiseFont w a).mem = s.mem := rfl
@[simp] theorem State.raiseFont_v (s : State) (w : Word) (a : Nat) : (s.raiseFont w a).v = s.v := rfl
@[simp] theorem State.raiseFont_i (s : State) (w : Word) (a : Nat) : (s.raiseFont w a).i = s.i := rfl
@[simp] theorem State.raiseFont_pc (s : State) (w : Word) (a : Nat) : (s.raiseFont w a).pc = s.pc := rfl
@[simp] theorem State.raiseFont_stack (s : State) (w : Word) (a : Nat) : (s.raiseFont w a).stack = s.stack := rfl
@[simp] theorem State.raiseFont_dt (s : State) (w : Word) (a : Nat) : (s.raiseFont w a).dt = s.dt := rfl
@[simp] theorem State.raiseFont_st (s : State) (w : Word) (a : Nat) : (s.raiseFont w a).st = s.st := rfl
@[simp] theorem State.raiseFont_keys (s : State) (w : Word) (a : Nat) : (s.raiseFont w a).keys = s.keys := rfl
@[simp] theorem State.raiseFont_fb (s : State) (w : Word) (a : Nat) : (s.raiseFont w a).fb = s.fb := rfl
@[simp] theorem State.raiseFont_status (s : State) (w : Word) (a : Nat) : (s.raiseFont w a).status = .faulted (.mk .addressOutOfRange s.pc (some w) (some (BitVec.ofNat 16 a)) true) := rfl
@[simp] theorem State.raiseFont_draws (s : State) (w : Word) (a : Nat) : (s.raiseFont w a).draws = s.draws := rfl
@[simp] theorem State.raiseFont_schedule (s : State) (w : Word) (a : Nat) : (s.raiseFont w a).schedule = s.schedule := rfl
@[simp] theorem State.raiseFont_turn (s : State) (w : Word) (a : Nat) : (s.raiseFont w a).turn = s.turn := rfl
@[simp] theorem State.raiseFont_params (s : State) (w : Word) (a : Nat) : (s.raiseFont w a).params = s.params := rfl
@[simp] theorem State.raiseFont_getV (s : State) (w : Word) (a : Nat) (q : Reg) : (s.raiseFont w a).getV q = s.getV q := rfl
@[simp] theorem State.raiseFont_readByte (s : State) (w : Word) (a : Nat) (q : Nat) : (s.raiseFont w a).readByte q = s.readByte q := rfl

/-! ### raiseFetch: R40's fault -/

@[simp] theorem State.raiseFetch_mem (s : State) : (s.raiseFetch).mem = s.mem := rfl
@[simp] theorem State.raiseFetch_v (s : State) : (s.raiseFetch).v = s.v := rfl
@[simp] theorem State.raiseFetch_i (s : State) : (s.raiseFetch).i = s.i := rfl
@[simp] theorem State.raiseFetch_pc (s : State) : (s.raiseFetch).pc = s.pc := rfl
@[simp] theorem State.raiseFetch_stack (s : State) : (s.raiseFetch).stack = s.stack := rfl
@[simp] theorem State.raiseFetch_dt (s : State) : (s.raiseFetch).dt = s.dt := rfl
@[simp] theorem State.raiseFetch_st (s : State) : (s.raiseFetch).st = s.st := rfl
@[simp] theorem State.raiseFetch_keys (s : State) : (s.raiseFetch).keys = s.keys := rfl
@[simp] theorem State.raiseFetch_fb (s : State) : (s.raiseFetch).fb = s.fb := rfl
@[simp] theorem State.raiseFetch_status (s : State) : (s.raiseFetch).status = .faulted (.mk .addressOutOfRange s.pc none (some (if 0xFFF < s.pc.toNat then s.pc else 0x1000)) false) := rfl
@[simp] theorem State.raiseFetch_draws (s : State) : (s.raiseFetch).draws = s.draws := rfl
@[simp] theorem State.raiseFetch_schedule (s : State) : (s.raiseFetch).schedule = s.schedule := rfl
@[simp] theorem State.raiseFetch_turn (s : State) : (s.raiseFetch).turn = s.turn := rfl
@[simp] theorem State.raiseFetch_params (s : State) : (s.raiseFetch).params = s.params := rfl
@[simp] theorem State.raiseFetch_getV (s : State) (q : Reg) : (s.raiseFetch).getV q = s.getV q := rfl
@[simp] theorem State.raiseFetch_readByte (s : State) (q : Nat) : (s.raiseFetch).readByte q = s.readByte q := rfl

/-! ### raiseInvalid: R55's fault -/

@[simp] theorem State.raiseInvalid_mem (s : State) (w : Word) : (s.raiseInvalid w).mem = s.mem := rfl
@[simp] theorem State.raiseInvalid_v (s : State) (w : Word) : (s.raiseInvalid w).v = s.v := rfl
@[simp] theorem State.raiseInvalid_i (s : State) (w : Word) : (s.raiseInvalid w).i = s.i := rfl
@[simp] theorem State.raiseInvalid_pc (s : State) (w : Word) : (s.raiseInvalid w).pc = s.pc := rfl
@[simp] theorem State.raiseInvalid_stack (s : State) (w : Word) : (s.raiseInvalid w).stack = s.stack := rfl
@[simp] theorem State.raiseInvalid_dt (s : State) (w : Word) : (s.raiseInvalid w).dt = s.dt := rfl
@[simp] theorem State.raiseInvalid_st (s : State) (w : Word) : (s.raiseInvalid w).st = s.st := rfl
@[simp] theorem State.raiseInvalid_keys (s : State) (w : Word) : (s.raiseInvalid w).keys = s.keys := rfl
@[simp] theorem State.raiseInvalid_fb (s : State) (w : Word) : (s.raiseInvalid w).fb = s.fb := rfl
@[simp] theorem State.raiseInvalid_status (s : State) (w : Word) : (s.raiseInvalid w).status = .faulted (.mk .invalidOpcode s.pc (some w) none false) := rfl
@[simp] theorem State.raiseInvalid_draws (s : State) (w : Word) : (s.raiseInvalid w).draws = s.draws := rfl
@[simp] theorem State.raiseInvalid_schedule (s : State) (w : Word) : (s.raiseInvalid w).schedule = s.schedule := rfl
@[simp] theorem State.raiseInvalid_turn (s : State) (w : Word) : (s.raiseInvalid w).turn = s.turn := rfl
@[simp] theorem State.raiseInvalid_params (s : State) (w : Word) : (s.raiseInvalid w).params = s.params := rfl
@[simp] theorem State.raiseInvalid_getV (s : State) (w : Word) (q : Reg) : (s.raiseInvalid w).getV q = s.getV q := rfl
@[simp] theorem State.raiseInvalid_readByte (s : State) (w : Word) (q : Nat) : (s.raiseInvalid w).readByte q = s.readByte q := rfl

/-! ### writeBytes: a run of bytes stored (R38) -/

@[simp] theorem State.writeBytes_mem (s : State) (a : Nat) (bytes : List Byte) : (s.writeBytes a bytes).mem = Memory.writeBytes s.params.font s.mem a bytes := rfl
@[simp] theorem State.writeBytes_v (s : State) (a : Nat) (bytes : List Byte) : (s.writeBytes a bytes).v = s.v := rfl
@[simp] theorem State.writeBytes_i (s : State) (a : Nat) (bytes : List Byte) : (s.writeBytes a bytes).i = s.i := rfl
@[simp] theorem State.writeBytes_pc (s : State) (a : Nat) (bytes : List Byte) : (s.writeBytes a bytes).pc = s.pc := rfl
@[simp] theorem State.writeBytes_stack (s : State) (a : Nat) (bytes : List Byte) : (s.writeBytes a bytes).stack = s.stack := rfl
@[simp] theorem State.writeBytes_dt (s : State) (a : Nat) (bytes : List Byte) : (s.writeBytes a bytes).dt = s.dt := rfl
@[simp] theorem State.writeBytes_st (s : State) (a : Nat) (bytes : List Byte) : (s.writeBytes a bytes).st = s.st := rfl
@[simp] theorem State.writeBytes_keys (s : State) (a : Nat) (bytes : List Byte) : (s.writeBytes a bytes).keys = s.keys := rfl
@[simp] theorem State.writeBytes_fb (s : State) (a : Nat) (bytes : List Byte) : (s.writeBytes a bytes).fb = s.fb := rfl
@[simp] theorem State.writeBytes_status (s : State) (a : Nat) (bytes : List Byte) : (s.writeBytes a bytes).status = s.status := rfl
@[simp] theorem State.writeBytes_draws (s : State) (a : Nat) (bytes : List Byte) : (s.writeBytes a bytes).draws = s.draws := rfl
@[simp] theorem State.writeBytes_schedule (s : State) (a : Nat) (bytes : List Byte) : (s.writeBytes a bytes).schedule = s.schedule := rfl
@[simp] theorem State.writeBytes_turn (s : State) (a : Nat) (bytes : List Byte) : (s.writeBytes a bytes).turn = s.turn := rfl
@[simp] theorem State.writeBytes_params (s : State) (a : Nat) (bytes : List Byte) : (s.writeBytes a bytes).params = s.params := rfl
@[simp] theorem State.writeBytes_getV (s : State) (a : Nat) (bytes : List Byte) (q : Reg) : (s.writeBytes a bytes).getV q = s.getV q := rfl

/-! ### tick: a tick (R113) -/

@[simp] theorem State.tick_mem (s : State) : (s.tick).mem = s.mem := rfl
@[simp] theorem State.tick_v (s : State) : (s.tick).v = s.v := rfl
@[simp] theorem State.tick_i (s : State) : (s.tick).i = s.i := rfl
@[simp] theorem State.tick_pc (s : State) : (s.tick).pc = s.pc := rfl
@[simp] theorem State.tick_stack (s : State) : (s.tick).stack = s.stack := rfl
@[simp] theorem State.tick_dt (s : State) : (s.tick).dt = countDown s.dt := rfl
@[simp] theorem State.tick_st (s : State) : (s.tick).st = countDown s.st := rfl
@[simp] theorem State.tick_keys (s : State) : (s.tick).keys = s.keys := rfl
@[simp] theorem State.tick_fb (s : State) : (s.tick).fb = s.fb := rfl
@[simp] theorem State.tick_status (s : State) : (s.tick).status = s.status := rfl
@[simp] theorem State.tick_draws (s : State) : (s.tick).draws = s.draws := rfl
@[simp] theorem State.tick_schedule (s : State) : (s.tick).schedule = s.schedule := rfl
@[simp] theorem State.tick_turn (s : State) : (s.tick).turn = s.turn := rfl
@[simp] theorem State.tick_params (s : State) : (s.tick).params = s.params := rfl
@[simp] theorem State.tick_getV (s : State) (q : Reg) : (s.tick).getV q = s.getV q := rfl
@[simp] theorem State.tick_readByte (s : State) (q : Nat) : (s.tick).readByte q = s.readByte q := rfl

/-! ### setKeys: `set_keys` (R32) -/

@[simp] theorem State.setKeys_mem (s : State) (k : Word) : (s.setKeys k).mem = s.mem := rfl
@[simp] theorem State.setKeys_v (s : State) (k : Word) : (s.setKeys k).v = s.v := rfl
@[simp] theorem State.setKeys_i (s : State) (k : Word) : (s.setKeys k).i = s.i := rfl
@[simp] theorem State.setKeys_pc (s : State) (k : Word) : (s.setKeys k).pc = s.pc := rfl
@[simp] theorem State.setKeys_stack (s : State) (k : Word) : (s.setKeys k).stack = s.stack := rfl
@[simp] theorem State.setKeys_dt (s : State) (k : Word) : (s.setKeys k).dt = s.dt := rfl
@[simp] theorem State.setKeys_st (s : State) (k : Word) : (s.setKeys k).st = s.st := rfl
@[simp] theorem State.setKeys_keys (s : State) (k : Word) : (s.setKeys k).keys = k := rfl
@[simp] theorem State.setKeys_fb (s : State) (k : Word) : (s.setKeys k).fb = s.fb := rfl
@[simp] theorem State.setKeys_status (s : State) (k : Word) : (s.setKeys k).status = s.status := rfl
@[simp] theorem State.setKeys_draws (s : State) (k : Word) : (s.setKeys k).draws = s.draws := rfl
@[simp] theorem State.setKeys_schedule (s : State) (k : Word) : (s.setKeys k).schedule = s.schedule := rfl
@[simp] theorem State.setKeys_turn (s : State) (k : Word) : (s.setKeys k).turn = s.turn := rfl
@[simp] theorem State.setKeys_params (s : State) (k : Word) : (s.setKeys k).params = s.params := rfl
@[simp] theorem State.setKeys_getV (s : State) (k : Word) (q : Reg) : (s.setKeys k).getV q = s.getV q := rfl
@[simp] theorem State.setKeys_readByte (s : State) (k : Word) (q : Nat) : (s.setKeys k).readByte q = s.readByte q := rfl

/-! ### takeTransaction: taking the next transaction off the schedule -/

@[simp] theorem State.takeTransaction_mem (s : State) : (s.takeTransaction).mem = s.mem := rfl
@[simp] theorem State.takeTransaction_v (s : State) : (s.takeTransaction).v = s.v := rfl
@[simp] theorem State.takeTransaction_i (s : State) : (s.takeTransaction).i = s.i := rfl
@[simp] theorem State.takeTransaction_pc (s : State) : (s.takeTransaction).pc = s.pc := rfl
@[simp] theorem State.takeTransaction_stack (s : State) : (s.takeTransaction).stack = s.stack := rfl
@[simp] theorem State.takeTransaction_dt (s : State) : (s.takeTransaction).dt = s.dt := rfl
@[simp] theorem State.takeTransaction_st (s : State) : (s.takeTransaction).st = s.st := rfl
@[simp] theorem State.takeTransaction_keys (s : State) : (s.takeTransaction).keys = s.keys := rfl
@[simp] theorem State.takeTransaction_fb (s : State) : (s.takeTransaction).fb = s.fb := rfl
@[simp] theorem State.takeTransaction_status (s : State) : (s.takeTransaction).status = s.status := rfl
@[simp] theorem State.takeTransaction_draws (s : State) : (s.takeTransaction).draws = s.draws := rfl
@[simp] theorem State.takeTransaction_schedule (s : State) : (s.takeTransaction).schedule = s.schedule.tail := rfl
@[simp] theorem State.takeTransaction_turn (s : State) : (s.takeTransaction).turn = if s.schedule.isEmpty then s.turn + 1 else s.turn := rfl
@[simp] theorem State.takeTransaction_params (s : State) : (s.takeTransaction).params = s.params := rfl
@[simp] theorem State.takeTransaction_getV (s : State) (q : Reg) : (s.takeTransaction).getV q = s.getV q := rfl
@[simp] theorem State.takeTransaction_readByte (s : State) (q : Nat) : (s.takeTransaction).readByte q = s.readByte q := rfl

/-! ### setResultThenFlag: a result to Vx, then a flag to VF (R72) -/

@[simp] theorem State.setResultThenFlag_mem (s : State) (x : Reg) (r : Byte × Bool) : (s.setResultThenFlag x r).mem = s.mem := rfl
@[simp] theorem State.setResultThenFlag_i (s : State) (x : Reg) (r : Byte × Bool) : (s.setResultThenFlag x r).i = s.i := rfl
@[simp] theorem State.setResultThenFlag_pc (s : State) (x : Reg) (r : Byte × Bool) : (s.setResultThenFlag x r).pc = s.pc := rfl
@[simp] theorem State.setResultThenFlag_stack (s : State) (x : Reg) (r : Byte × Bool) : (s.setResultThenFlag x r).stack = s.stack := rfl
@[simp] theorem State.setResultThenFlag_dt (s : State) (x : Reg) (r : Byte × Bool) : (s.setResultThenFlag x r).dt = s.dt := rfl
@[simp] theorem State.setResultThenFlag_st (s : State) (x : Reg) (r : Byte × Bool) : (s.setResultThenFlag x r).st = s.st := rfl
@[simp] theorem State.setResultThenFlag_keys (s : State) (x : Reg) (r : Byte × Bool) : (s.setResultThenFlag x r).keys = s.keys := rfl
@[simp] theorem State.setResultThenFlag_fb (s : State) (x : Reg) (r : Byte × Bool) : (s.setResultThenFlag x r).fb = s.fb := rfl
@[simp] theorem State.setResultThenFlag_status (s : State) (x : Reg) (r : Byte × Bool) : (s.setResultThenFlag x r).status = s.status := rfl
@[simp] theorem State.setResultThenFlag_draws (s : State) (x : Reg) (r : Byte × Bool) : (s.setResultThenFlag x r).draws = s.draws := rfl
@[simp] theorem State.setResultThenFlag_schedule (s : State) (x : Reg) (r : Byte × Bool) : (s.setResultThenFlag x r).schedule = s.schedule := rfl
@[simp] theorem State.setResultThenFlag_turn (s : State) (x : Reg) (r : Byte × Bool) : (s.setResultThenFlag x r).turn = s.turn := rfl
@[simp] theorem State.setResultThenFlag_params (s : State) (x : Reg) (r : Byte × Bool) : (s.setResultThenFlag x r).params = s.params := rfl
@[simp] theorem State.setResultThenFlag_readByte (s : State) (x : Reg) (r : Byte × Bool) (q : Nat) : (s.setResultThenFlag x r).readByte q = s.readByte q := rfl

/-! ### drawSprite: the framebuffer and VF (R93) -/

@[simp] theorem State.drawSprite_mem (s : State) (x y : Reg) (bs : List Byte) : (s.drawSprite x y bs).mem = s.mem := rfl
@[simp] theorem State.drawSprite_i (s : State) (x y : Reg) (bs : List Byte) : (s.drawSprite x y bs).i = s.i := rfl
@[simp] theorem State.drawSprite_pc (s : State) (x y : Reg) (bs : List Byte) : (s.drawSprite x y bs).pc = s.pc := rfl
@[simp] theorem State.drawSprite_stack (s : State) (x y : Reg) (bs : List Byte) : (s.drawSprite x y bs).stack = s.stack := rfl
@[simp] theorem State.drawSprite_dt (s : State) (x y : Reg) (bs : List Byte) : (s.drawSprite x y bs).dt = s.dt := rfl
@[simp] theorem State.drawSprite_st (s : State) (x y : Reg) (bs : List Byte) : (s.drawSprite x y bs).st = s.st := rfl
@[simp] theorem State.drawSprite_keys (s : State) (x y : Reg) (bs : List Byte) : (s.drawSprite x y bs).keys = s.keys := rfl
@[simp] theorem State.drawSprite_status (s : State) (x y : Reg) (bs : List Byte) : (s.drawSprite x y bs).status = s.status := rfl
@[simp] theorem State.drawSprite_draws (s : State) (x y : Reg) (bs : List Byte) : (s.drawSprite x y bs).draws = s.draws := rfl
@[simp] theorem State.drawSprite_schedule (s : State) (x y : Reg) (bs : List Byte) : (s.drawSprite x y bs).schedule = s.schedule := rfl
@[simp] theorem State.drawSprite_turn (s : State) (x y : Reg) (bs : List Byte) : (s.drawSprite x y bs).turn = s.turn := rfl
@[simp] theorem State.drawSprite_params (s : State) (x y : Reg) (bs : List Byte) : (s.drawSprite x y bs).params = s.params := rfl
@[simp] theorem State.drawSprite_readByte (s : State) (x y : Reg) (bs : List Byte) (q : Nat) : (s.drawSprite x y bs).readByte q = s.readByte q := rfl
@[simp] theorem State.drawSprite_fb (s : State) (x y : Reg) (bs : List Byte) :
    (s.drawSprite x y bs).fb = (drawRows (s.originColumn x) bs (s.originRow y) (s.fb, false)).1 := rfl

/-! ### Reading a register after an update -/

/-- A register read after a register write: the value written, or what was there (R11, R14). -/
@[simp] theorem State.getV_setV (s : State) (r q : Reg) (b : Byte) :
    (s.setV r b).getV q = if q = r then b else s.getV q := by
  by_cases h : q = r
  · subst h; simp [State.getV, State.setV]
  · have hn : r.toNat ≠ q.toNat := fun e => h (BitVec.eq_of_toNat_eq e.symm)
    simp [State.getV, State.setV, hn, h]

/-- With the result written first and the flag second, VF reads as the flag, x = F included (R72). -/
@[simp] theorem State.getV_setResultThenFlag (s : State) (x q : Reg) (r : Byte × Bool) :
    (s.setResultThenFlag x r).getV q = if q = regF then flagByte r.2 else if q = x then r.1 else s.getV q := by
  simp [State.setResultThenFlag]

/-- After a load, a register among the first `bytes.length` holds its byte; every other is as before (R91). -/
theorem State.getV_loadRegs (s : State) (bytes : List Byte) (q : Reg) :
    (s.loadRegs bytes).getV q = bytes.getD q.toNat (s.getV q) := by
  simp [State.getV, State.loadRegs]

/-- After a draw only VF is another register value: the collision (R93). -/
theorem State.getV_drawSprite (s : State) (x y q : Reg) (bs : List Byte) :
    (s.drawSprite x y bs).getV q =
      if q = regF then flagByte (drawRows (s.originColumn x) bs (s.originRow y) (s.fb, false)).2 else s.getV q := by
  rw [State.drawSprite, State.getV_setV]; rfl

/-- A written state field other than `v` does not change what a register reads as. -/
theorem State.getV_congr {s t : State} (h : t.v = s.v) (q : Reg) : t.getV q = s.getV q := by
  simp [State.getV, h]

/-- Two states with the same register readings have the same register file. -/
theorem State.v_ext {s t : State} (h : ∀ q, t.getV q = s.getV q) : t.v = s.v := by
  apply Vector.ext
  intro k hk
  have := h (BitVec.ofNat 4 k)
  simpa [State.getV, Nat.mod_eq_of_lt hk] using this

end Sys2Proof.Machine
end

