-- ==== Sys2Proof/Laws/Draw.lean ====
section
/-! SUPPORT. What the drawing loops of R93 do, pixel by pixel, and when they record a collision. -/

namespace Sys2Proof.Machine

/-- One set sprite bit inverts its own pixel, when there is one, and no other (R93, R95). -/
theorem pixel_drawPixel (r c : Nat) (p : Framebuffer × Bool) (r' c' : Nat) :
    pixel (drawPixel r c p).1 r' c' =
      (pixel p.1 r' c' ^^ decide (r' = r ∧ c' = c ∧ r < 32 ∧ c < 64)) := by
  unfold drawPixel
  split
  · rename_i h
    unfold pixel
    by_cases h' : r' < 32 ∧ c' < 64
    · simp only [h', h, and_self, dite_true]
      by_cases hr : r' = r
      · subst hr
        by_cases hc : c' = c
        · subst hc; simp
        · simp [hc, Ne.symm hc]
      · simp [hr, Ne.symm hr]
    · have : ¬ (r' = r ∧ c' = c ∧ r < 32 ∧ c < 64) := by rintro ⟨rfl, rfl, h1, h2⟩; exact h' ⟨h1, h2⟩
      simp [h', this]
  · rename_i h
    have : ¬ (r' = r ∧ c' = c ∧ r < 32 ∧ c < 64) := fun ⟨_, _, h1, h2⟩ => h ⟨h1, h2⟩
    simp [this]

/-- One set sprite bit records a collision exactly when its pixel was set (R94). -/
theorem collision_drawPixel (r c : Nat) (p : Framebuffer × Bool) :
    (drawPixel r c p).2 = (p.2 || pixel p.1 r c) := by
  unfold drawPixel
  split
  · rfl
  · rename_i h; simp [pixel, h]

/-- One sprite row, its first `m` bits: the pixels under its set bits are inverted (R93). -/
theorem pixel_rowBits (b : Byte) (r ox m : Nat) (p : Framebuffer × Bool) (r' c' : Nat) :
    pixel ((List.range m).foldl (fun q k => if b.getLsbD (7 - k) then drawPixel r (ox + k) q else q) p).1 r' c' =
      (pixel p.1 r' c' ^^ decide (r' = r ∧ ox ≤ c' ∧ c' < ox + m ∧ r < 32 ∧ c' < 64 ∧
        b.getLsbD (7 - (c' - ox)) = true)) := by
  induction m with
  | zero =>
    have : ¬ (r' = r ∧ ox ≤ c' ∧ c' < ox + 0 ∧ r < 32 ∧ c' < 64 ∧ b.getLsbD (7 - (c' - ox)) = true) := by omega
    rw [decide_eq_false this, Bool.xor_false]; rfl
  | succ m ih =>
    rw [List.range_succ, List.foldl_append, List.foldl_cons, List.foldl_nil]
    by_cases hc : c' = ox + m
    · have h0 : ¬ (r' = r ∧ ox ≤ c' ∧ c' < ox + m ∧ r < 32 ∧ c' < 64 ∧ b.getLsbD (7 - (c' - ox)) = true) := by omega
      have hk : c' - ox = m := by omega
      split
      · rename_i hb
        rw [pixel_drawPixel, ih]
        have : (r' = r ∧ c' = ox + m ∧ r < 32 ∧ ox + m < 64) ↔
            (r' = r ∧ ox ≤ c' ∧ c' < ox + (m + 1) ∧ r < 32 ∧ c' < 64 ∧ b.getLsbD (7 - (c' - ox)) = true) := by
          rw [hk]; simp only [hb, and_true]; omega
        simp only [h0, decide_false, Bool.xor_false, decide_eq_decide.2 this]
      · rename_i hb
        rw [ih]
        have : ¬ (r' = r ∧ ox ≤ c' ∧ c' < ox + (m + 1) ∧ r < 32 ∧ c' < 64 ∧ b.getLsbD (7 - (c' - ox)) = true) := by
          rw [hk]; tauto
        simp only [h0, this]
    · have hiff : (r' = r ∧ ox ≤ c' ∧ c' < ox + m ∧ r < 32 ∧ c' < 64 ∧ b.getLsbD (7 - (c' - ox)) = true) ↔
          (r' = r ∧ ox ≤ c' ∧ c' < ox + (m + 1) ∧ r < 32 ∧ c' < 64 ∧ b.getLsbD (7 - (c' - ox)) = true) := by
        have : c' < ox + m ↔ c' < ox + (m + 1) := by omega
        rw [this]
      rw [← decide_eq_decide.2 hiff]
      split
      · rw [pixel_drawPixel, ih]
        have : ¬ (r' = r ∧ c' = ox + m ∧ r < 32 ∧ ox + m < 64) := fun h => hc h.2.1
        simp [this]
      · exact ih

/-- One sprite row, its first `m` bits: a collision is recorded exactly when a set bit lies on a set pixel (R94). -/
theorem collision_rowBits (b : Byte) (r ox m : Nat) (p : Framebuffer × Bool) :
    ((List.range m).foldl (fun q k => if b.getLsbD (7 - k) then drawPixel r (ox + k) q else q) p).2 = true ↔
      p.2 = true ∨ ∃ k, k < m ∧ b.getLsbD (7 - k) = true ∧ pixel p.1 r (ox + k) = true := by
  induction m with
  | zero => simp
  | succ m ih =>
    rw [List.range_succ, List.foldl_append, List.foldl_cons, List.foldl_nil]
    have hp := pixel_rowBits b r ox m p r (ox + m)
    have h0 : ¬ (r = r ∧ ox ≤ ox + m ∧ ox + m < ox + m ∧ r < 32 ∧ ox + m < 64 ∧
        b.getLsbD (7 - (ox + m - ox)) = true) := by omega
    rw [decide_eq_false h0, Bool.xor_false] at hp
    split
    · rename_i hb
      rw [collision_drawPixel, Bool.or_eq_true, ih, hp]
      constructor
      · rintro ((h | ⟨k, hk, h⟩) | h)
        · exact .inl h
        · exact .inr ⟨k, by omega, h⟩
        · exact .inr ⟨m, by omega, hb, h⟩
      · rintro (h | ⟨k, hk, h⟩)
        · exact .inl (.inl h)
        · rcases Nat.lt_succ_iff_lt_or_eq.1 hk with hk | rfl
          · exact .inl (.inr ⟨k, hk, h⟩)
          · exact .inr h.2
    · rename_i hb
      rw [ih]
      constructor
      · rintro (h | ⟨k, hk, h⟩)
        · exact .inl h
        · exact .inr ⟨k, by omega, h⟩
      · rintro (h | ⟨k, hk, h⟩)
        · exact .inl h
        · rcases Nat.lt_succ_iff_lt_or_eq.1 hk with hk | rfl
          · exact .inr ⟨k, hk, h⟩
          · exact absurd h.1 hb

/-- A whole sprite inverts exactly the framebuffer pixels under its set bits (R93, R95). -/
theorem pixel_drawRows (ox : Nat) (bytes : List Byte) (r : Nat) (p : Framebuffer × Bool) {r' c' : Nat}
    (hr : r' < 32) (hc : c' < 64) :
    pixel (drawRows ox bytes r p).1 r' c' = (pixel p.1 r' c' ^^ spriteBit bytes r ox r' c') := by
  induction bytes generalizing r p with
  | nil => simp [drawRows, spriteBit]
  | cons b rest ih =>
    rw [drawRows, ih, drawRow, pixel_rowBits, Bool.xor_assoc]
    congr 1
    rcases Nat.lt_trichotomy r' r with h | rfl | h
    · have h1 : ¬ r ≤ r' := by omega
      have h2 : ¬ r + 1 ≤ r' := by omega
      have h3 : r' ≠ r := by omega
      simp [spriteBit, h1, h2, h3]
    · have h2 : ¬ r' + 1 ≤ r' := by omega
      by_cases hox : ox ≤ c' ∧ c' < ox + 8
      · simp [spriteBit, hox, hr, hc]
      · have : ¬ (r' = r' ∧ ox ≤ c' ∧ c' < ox + 8 ∧ r' < 32 ∧ c' < 64 ∧ b.getLsbD (7 - (c' - ox)) = true) := by tauto
        have h4 : ¬ (r' ≤ r' ∧ ox ≤ c' ∧ c' < ox + 8) := by tauto
        have h5 : ¬ (r' + 1 ≤ r' ∧ ox ≤ c' ∧ c' < ox + 8) := by tauto
        rw [decide_eq_false this, spriteBit, spriteBit, decide_eq_false h4, decide_eq_false h5]; rfl
    · have h1 : r ≤ r' := by omega
      have h2 : r + 1 ≤ r' := by omega
      have h3 : r' ≠ r := by omega
      have h4 : r' - r = (r' - (r + 1)) + 1 := by omega
      simp [spriteBit, h1, h2, h3, h4]

/-- A whole sprite records a collision exactly when one of its set bits lies on a set pixel (R94). -/
theorem collision_drawRows (ox : Nat) (bytes : List Byte) (r : Nat) (p : Framebuffer × Bool) :
    (drawRows ox bytes r p).2 = true ↔
      p.2 = true ∨ ∃ r' c', r' < 32 ∧ c' < 64 ∧ pixel p.1 r' c' = true ∧ spriteBit bytes r ox r' c' = true := by
  induction bytes generalizing r p with
  | nil => simp [drawRows, spriteBit]
  | cons b rest ih =>
    have inside : ∀ {r' c'}, pixel p.1 r' c' = true → r' < 32 ∧ c' < 64 := by
      intro r' c' h; by_contra hn; simp [pixel, hn] at h
    have below : ∀ {r' c'}, r' ≠ r → pixel (drawRow b r ox p).1 r' c' = pixel p.1 r' c' := by
      intro r' c' h; rw [drawRow, pixel_rowBits]; simp [h]
    rw [drawRows, ih, drawRow, collision_rowBits, ← drawRow]
    constructor
    · rintro ((h | ⟨k, hk, hb, hp⟩) | ⟨r', c', hr, hc, hp, hs⟩)
      · exact .inl h
      · refine .inr ⟨r, ox + k, (inside hp).1, (inside hp).2, hp, ?_⟩
        simp [spriteBit, hk, hb]
      · have hlt : r + 1 ≤ r' := by
          by_contra hn; simp [spriteBit, hn] at hs
        refine .inr ⟨r', c', hr, hc, by rwa [below (by omega)] at hp, ?_⟩
        have h4 : r' - r = (r' - (r + 1)) + 1 := by omega
        have h1 : r ≤ r' := by omega
        simpa [spriteBit, h4, h1, hlt] using hs
    · rintro (h | ⟨r', c', hr, hc, hp, hs⟩)
      · exact .inl (.inl h)
      · have hle : r ≤ r' := by by_contra hn; simp [spriteBit, hn] at hs
        rcases Nat.eq_or_lt_of_le hle with rfl | hlt
        · have hox : ox ≤ c' ∧ c' < ox + 8 := by by_contra hn; simp [spriteBit, hn] at hs
          refine .inl (.inr ⟨c' - ox, by omega, ?_, ?_⟩)
          · simpa [spriteBit, hox] using hs
          · rwa [show ox + (c' - ox) = c' by omega]
        · refine .inr ⟨r', c', hr, hc, by rwa [below (by omega)], ?_⟩
          have h4 : r' - r = (r' - (r + 1)) + 1 := by omega
          have h2 : r + 1 ≤ r' := hlt
          simpa [spriteBit, h4, h2, hle] using hs

/-- Two framebuffers with the same pixels are the same. -/
theorem framebuffer_ext {f g : Framebuffer} (h : ∀ r c, r < 32 → c < 64 → pixel f r c = pixel g r c) : f = g := by
  apply Vector.ext; intro r hr
  apply Vector.ext; intro c hc
  simpa [pixel, hr, hc] using h r c hr hc

/-- A clear framebuffer has no set pixel (R92). -/
@[simp] theorem pixel_clearFramebuffer (r c : Nat) : pixel clearFramebuffer r c = false := by
  by_cases h : r < 32 ∧ c < 64 <;> simp [pixel, clearFramebuffer, h]

end Sys2Proof.Machine
end

