-- ==== Sys2Proof/Laws/Encoding.lean ====
section
/-! SUPPORT. The fields of R51 read back from each layout an encoding has, and a word put together again from its fields.
Every proof looks at the field's bits one at a time. -/

namespace Sys2Proof

/-! ### `base | x << 8 | y << 4` -/

@[simp] theorem opField_wordXY (b : Word) (x y : Reg) : opField (wordXY b x y) = opField b := by
  ext k hk; interval_cases k <;> simp [opField, wordXY]

@[simp] theorem xField_wordXY (b : Word) (x y : Reg) : xField (wordXY b x y) = xField b ||| x := by
  ext k hk; interval_cases k <;> simp [xField, wordXY]

@[simp] theorem yField_wordXY (b : Word) (x y : Reg) : yField (wordXY b x y) = yField b ||| y := by
  ext k hk; interval_cases k <;> simp [yField, wordXY]

@[simp] theorem nField_wordXY (b : Word) (x y : Reg) : nField (wordXY b x y) = nField b := by
  ext k hk; interval_cases k <;> simp [nField, wordXY]

/-- A word is its own `op` and `n` with its `x` and `y` filled in. -/
theorem wordXY_of_fields (w : Word) :
    wordXY ((opField w).setWidth 16 <<< 12 ||| (nField w).setWidth 16) (xField w) (yField w) = w := by
  ext k hk; interval_cases k <;> simp [wordXY, opField, xField, yField, nField]

/-! ### `base | x << 8 | y << 4 | n` -/

@[simp] theorem opField_wordXYN (b : Word) (x y : Reg) (n : Nibble) : opField (wordXYN b x y n) = opField b := by
  ext k hk; interval_cases k <;> simp [opField, wordXYN, wordXY]

@[simp] theorem xField_wordXYN (b : Word) (x y : Reg) (n : Nibble) : xField (wordXYN b x y n) = xField b ||| x := by
  ext k hk; interval_cases k <;> simp [xField, wordXYN, wordXY]

@[simp] theorem yField_wordXYN (b : Word) (x y : Reg) (n : Nibble) : yField (wordXYN b x y n) = yField b ||| y := by
  ext k hk; interval_cases k <;> simp [yField, wordXYN, wordXY]

@[simp] theorem nField_wordXYN (b : Word) (x y : Reg) (n : Nibble) : nField (wordXYN b x y n) = nField b ||| n := by
  ext k hk; interval_cases k <;> simp [nField, wordXYN, wordXY]

/-- A word is its own `op` with its `x`, `y` and `n` filled in. -/
theorem wordXYN_of_fields (w : Word) :
    wordXYN ((opField w).setWidth 16 <<< 12) (xField w) (yField w) (nField w) = w := by
  ext k hk; interval_cases k <;> simp [wordXYN, wordXY, opField, xField, yField, nField]

/-! ### `base | x << 8 | nn` -/

@[simp] theorem opField_wordXNN (b : Word) (x : Reg) (nn : Byte) : opField (wordXNN b x nn) = opField b := by
  ext k hk; interval_cases k <;> simp [opField, wordXNN]

@[simp] theorem xField_wordXNN (b : Word) (x : Reg) (nn : Byte) : xField (wordXNN b x nn) = xField b ||| x := by
  ext k hk; interval_cases k <;> simp [xField, wordXNN]

@[simp] theorem nnField_wordXNN (b : Word) (x : Reg) (nn : Byte) : nnField (wordXNN b x nn) = nnField b ||| nn := by
  ext k hk; interval_cases k <;> simp [nnField, wordXNN]

/-- A word is its own `op` with its `x` and `nn` filled in. -/
theorem wordXNN_of_fields (w : Word) : wordXNN ((opField w).setWidth 16 <<< 12) (xField w) (nnField w) = w := by
  ext k hk; interval_cases k <;> simp [wordXNN, opField, xField, nnField]

/-! ### `base | x << 8` -/

@[simp] theorem opField_wordX (b : Word) (x : Reg) : opField (wordX b x) = opField b := by
  ext k hk; interval_cases k <;> simp [opField, wordX]

@[simp] theorem xField_wordX (b : Word) (x : Reg) : xField (wordX b x) = xField b ||| x := by
  ext k hk; interval_cases k <;> simp [xField, wordX]

@[simp] theorem nnField_wordX (b : Word) (x : Reg) : nnField (wordX b x) = nnField b := by
  ext k hk; interval_cases k <;> simp [nnField, wordX]

/-- A word is its own `op` and `nn` with its `x` filled in. -/
theorem wordX_of_fields (w : Word) :
    wordX ((opField w).setWidth 16 <<< 12 ||| (nnField w).setWidth 16) (xField w) = w := by
  ext k hk; interval_cases k <;> simp [wordX, opField, xField, nnField]

/-! ### `base | nnn` -/

@[simp] theorem opField_wordNNN (b : Word) (nnn : Addr12) : opField (wordNNN b nnn) = opField b := by
  ext k hk; interval_cases k <;> simp [opField, wordNNN]

@[simp] theorem nnnField_wordNNN (b : Word) (nnn : Addr12) : nnnField (wordNNN b nnn) = nnnField b ||| nnn := by
  ext k hk; interval_cases k <;> simp [nnnField, wordNNN]

/-- A word is its own `op` with its `nnn` filled in. -/
theorem wordNNN_of_fields (w : Word) : wordNNN ((opField w).setWidth 16 <<< 12) (nnnField w) = w := by
  ext k hk; interval_cases k <;> simp [wordNNN, opField, nnnField]

/-! ### Bytes -/

/-- The two stored bytes of a word give the word back (R37). -/
theorem wordOfBytes_bytesOfWord (w : Word) : wordOfBytes (w.extractLsb' 8 8) (w.extractLsb' 0 8) = w := by
  ext k hk; interval_cases k <;> simp [wordOfBytes]

/-- The decoder on the stored bytes of a word is the decoder on the word (R50, R57). -/
theorem decodeBytes_bytesOfWord (w : Word) (rest : List Byte) :
    decodeBytes (bytesOfWord w ++ rest) = (decode w).map fun i => (i, rest) := by
  simp only [bytesOfWord, decodeBytes, List.cons_append, List.nil_append, wordOfBytes_bytesOfWord]
  cases decode w <;> rfl

/-- The decoder's only error on a word is the word's own InvalidOpcode (R57). -/
theorem decode_error {w : Word} {e : DecodeError} (h : decode w = .error e) : e = .invalidOpcode w := by
  revert h
  unfold decode decodeOp0 decodeOp5 decodeOp8 decodeOp9 decodeOpE decodeOpF
  repeat' split
  all_goals simp [eq_comm]

end Sys2Proof
end

