-- ==== Sys2Proof/Laws/Memory.lean ====
section
/-! SUPPORT. The laws of memory (R44): a read after a write gives the byte written, every other address reads as before, and
every operation keeps the canonical form. -/

namespace Sys2Proof.Machine

variable {F : Font}

@[simp] theorem Memory.read_nil (a : Nat) : Memory.read F [] a = initialByte F a := rfl

@[simp] theorem Memory.read_cons (c : Host.Cell) (m : Memory) (a : Nat) :
    Memory.read F (c :: m) a = if c.1 = a then c.2 else Memory.read F m a := rfl

/-- Taking out the cells at `a` makes `a` read as its initial byte, and changes no other address. -/
theorem Memory.read_filter (m : Memory) (a q : Nat) :
    Memory.read F (m.filter fun c => c.1 != a) q = if q = a then initialByte F a else Memory.read F m q := by
  induction m with
  | nil => by_cases h : q = a <;> simp [h]
  | cons c m ih =>
    by_cases hc : c.1 = a
    · simp only [List.filter_cons, hc, bne_self_eq_false, Bool.false_eq_true, if_false, ih, Memory.read_cons]
      by_cases h : q = a
      · simp [h]
      · simp [h, Ne.symm h]
    · have hb : (c.1 != a) = true := by simpa using hc
      simp only [List.filter_cons, hb, if_true, Memory.read_cons, ih]
      by_cases h : q = a
      · subst h; simp [hc]
      · simp [h]

/-- Putting in a cell at an address that memory does not list makes it read as that cell. -/
theorem Memory.read_insertCell (m : Memory) (a q : Nat) (b : Byte) (h : ∀ c ∈ m, c.1 ≠ a) :
    Memory.read F (insertCell a b m) q = if q = a then b else Memory.read F m q := by
  induction m with
  | nil => simp [insertCell, eq_comm]
  | cons c m ih =>
    have hc : c.1 ≠ a := h c (by simp)
    unfold insertCell
    split
    · simp [eq_comm]
    · simp only [Memory.read_cons, ih fun d hd => h d (by simp [hd])]
      by_cases hq : c.1 = q
      · subst hq; simp [hc]
      · simp [hq]

/-- A read after a write: the byte written at its address, as before at every other (R44). -/
theorem Memory.read_write (m : Memory) (a q : Nat) (b : Byte) :
    Memory.read F (Memory.write F m a b) q = if q = a then b else Memory.read F m q := by
  unfold Memory.write
  split
  · rename_i h; rw [Memory.read_filter, ← h]
  · rw [Memory.read_insertCell _ _ _ _ (by simp), Memory.read_filter]
    by_cases h : q = a <;> simp [h]

/-- A read after a run of writes from `a` on: the byte of the run, or what was there (R38, R44). -/
theorem Memory.read_writeBytes (bs : List Byte) (m : Memory) (a q : Nat) :
    Memory.read F (Memory.writeBytes F m a bs) q =
      if a ≤ q ∧ q < a + bs.length then bs.getD (q - a) 0 else Memory.read F m q := by
  induction bs generalizing m a with
  | nil =>
    rw [if_neg (by simp only [List.length_nil]; omega)]; rfl
  | cons b bs ih =>
    rw [Memory.writeBytes, ih, Memory.read_write]
    rcases Nat.lt_trichotomy q a with h | h | h
    · have h1 : ¬ (a + 1 ≤ q ∧ q < a + 1 + bs.length) := by omega
      have h2 : ¬ (a ≤ q ∧ q < a + (b :: bs).length) := by omega
      have h3 : q ≠ a := by omega
      simp only [h1, h2, h3, if_false]
    · subst h
      simp
    · have h3 : q ≠ a := by omega
      have h4 : q - a = (q - (a + 1)) + 1 := by omega
      have h5 : (a + 1 ≤ q ∧ q < a + 1 + bs.length) ↔ (a ≤ q ∧ q < a + (b :: bs).length) := by
        simp only [List.length_cons]; omega
      simp only [h3, if_false, h4, h5, List.getD_cons_succ]

/-- Outside the bytes a run of writes covers, every address reads as before. -/
theorem Memory.read_writeBytes_of_outside {bs : List Byte} {m : Memory} {a q : Nat}
    (h : q < a ∨ a + bs.length ≤ q) : Memory.read F (Memory.writeBytes F m a bs) q = Memory.read F m q := by
  rw [Memory.read_writeBytes, if_neg (by omega)]

@[simp] theorem Memory.length_readBytes (m : Memory) (a len : Nat) : (Memory.readBytes F m a len).length = len := by
  simp [Memory.readBytes]

/-- The k-th byte of a multi-byte read is the byte at `a + k` (R38). -/
theorem Memory.getElem_readBytes {m : Memory} {a len k : Nat} (h : k < (Memory.readBytes F m a len).length) :
    (Memory.readBytes F m a len)[k] = Memory.read F m (a + k) := by
  simp [Memory.readBytes]

/-! ### The canonical form -/

/-- The canonical form, entry by entry. -/
theorem Memory.wf_cons (c : Host.Cell) (m : Memory) :
    Memory.wf F (c :: m) = true ↔
      c.1 < Config.memSize ∧ c.2 ≠ initialByte F c.1 ∧ (∀ d ∈ m, c.1 < d.1) ∧ Memory.wf F m = true := by
  simp [Memory.wf, and_assoc]

theorem Memory.wf_filter (m : Memory) (p : Host.Cell → Bool) (h : Memory.wf F m = true) :
    Memory.wf F (m.filter p) = true := by
  induction m with
  | nil => rfl
  | cons c m ih =>
    obtain ⟨h1, h2, h3, h4⟩ := (Memory.wf_cons c m).1 h
    rw [List.filter_cons]
    split
    · exact (Memory.wf_cons _ _).2 ⟨h1, h2, fun d hd => h3 d (List.mem_filter.1 hd).1, ih h4⟩
    · exact ih h4

theorem mem_insertCell (a : Nat) (b : Byte) (m : Memory) (d : Host.Cell) :
    d ∈ insertCell a b m ↔ d = (a, b) ∨ d ∈ m := by
  induction m with
  | nil => simp [insertCell]
  | cons c m ih =>
    unfold insertCell
    split
    · simp
    · simp only [List.mem_cons, ih]; tauto

theorem Memory.wf_insertCell {a : Nat} {b : Byte} {m : Memory} (ha : a < Config.memSize) (hb : b ≠ initialByte F a)
    (hn : ∀ c ∈ m, c.1 ≠ a) (h : Memory.wf F m = true) : Memory.wf F (insertCell a b m) = true := by
  induction m with
  | nil => exact (Memory.wf_cons _ _).2 ⟨ha, hb, by simp, rfl⟩
  | cons c m ih =>
    obtain ⟨h1, h2, h3, h4⟩ := (Memory.wf_cons c m).1 h
    unfold insertCell
    split
    · rename_i hlt
      refine (Memory.wf_cons _ _).2 ⟨ha, hb, fun d hd => ?_, h⟩
      rcases List.mem_cons.1 hd with rfl | hd
      · exact hlt
      · exact lt_trans hlt (h3 d hd)
    · rename_i hge
      refine (Memory.wf_cons _ _).2 ⟨h1, h2, fun d hd => ?_, ih (fun e he => hn e (by simp [he])) h4⟩
      rcases (mem_insertCell a b m d).1 hd with rfl | hd
      · have := hn c (by simp); simp only; omega
      · exact h3 d hd

/-- A write to an address of memory keeps the canonical form. -/
theorem Memory.wf_write {m : Memory} {a : Nat} {b : Byte} (ha : a < Config.memSize) (h : Memory.wf F m = true) :
    Memory.wf F (Memory.write F m a b) = true := by
  unfold Memory.write
  split
  · exact Memory.wf_filter _ _ h
  · rename_i hb
    exact Memory.wf_insertCell ha hb (by simp) (Memory.wf_filter _ _ h)

/-- A run of writes inside memory keeps the canonical form. -/
theorem Memory.wf_writeBytes {bs : List Byte} {m : Memory} {a : Nat} (ha : a + bs.length ≤ Config.memSize)
    (h : Memory.wf F m = true) : Memory.wf F (Memory.writeBytes F m a bs) = true := by
  induction bs generalizing m a with
  | nil => exact h
  | cons b bs ih =>
    simp only [List.length_cons] at ha
    exact ih (by omega) (Memory.wf_write (by omega) h)

/-- Reset's memory has the canonical form. -/
theorem State.reset_mem_wf : Memory.wf State.reset.params.font State.reset.mem = true := rfl

/-! ### The font region (R36) -/

/-- A store that the font check lets through covers no address of the font region. -/
theorem fontHit_none {a len : Nat} : fontHit a len = none ↔ ∀ k, k < len → inFont (a + k) = false := by
  simp [fontHit]

/-- The font check names an address of the store that lies in the font region, and every lower one of the store does
not. -/
theorem fontHit_some {a len q : Nat} (h : fontHit a len = some q) :
    a ≤ q ∧ q < a + len ∧ inFont q = true ∧ ∀ p, a ≤ p → p < q → inFont p = false := by
  unfold fontHit at h
  obtain ⟨hq, pre, post, hl, hpre⟩ := List.find?_eq_some_iff_append.1 h
  have hmem : q ∈ (List.range len).map (a + ·) := by rw [hl]; simp
  obtain ⟨k, hk, rfl⟩ := List.mem_map.1 hmem
  have hklen := List.mem_range.1 hk
  refine ⟨by omega, by omega, hq, fun p hp hpq => ?_⟩
  have hkpre : pre.length = k := by
    have hlt : pre.length < ((List.range len).map (a + ·)).length := by rw [hl]; simp
    have h1 : ((List.range len).map (a + ·))[pre.length]'hlt = a + k := by simp [hl]
    simp at h1; omega
  have hlt : p - a < pre.length := by omega
  have hlen : p - a < ((List.range len).map (a + ·)).length := by simp; omega
  have h2 : pre[p - a] = a + (p - a) := by
    have : ((List.range len).map (a + ·))[p - a]'hlen = pre[p - a] := by simp only [hl]; exact List.getElem_append_left hlt
    rw [← this]; simp
  have := hpre _ (List.getElem_mem hlt)
  rw [h2, show a + (p - a) = p by omega] at this
  simpa using this

end Sys2Proof.Machine
end

