-- ==== Sys2Proof/Laws/Ops.lean ====
section
/-! SUPPORT. For each shared operation, once, everything it can do: cite these instead of unfolding the operation. -/

namespace Sys2Proof.Machine

/-! ### The address checks -/

theorem State.rangeFaults_iff (s : State) (len : Nat) :
    s.rangeFaults len = true ↔ 0 < len ∧ 0xFFF < s.i.toNat + len - 1 := by
  simp [State.rangeFaults]

theorem State.rangeFaults_false_iff (s : State) (len : Nat) :
    s.rangeFaults len = false ↔ (len = 0 ∨ s.i.toNat + len ≤ 0x1000) := by
  rw [← Bool.not_eq_true, State.rangeFaults_iff]; omega

theorem State.fetchInside_iff (s : State) : s.fetchInside = true ↔ s.pc.toNat ≤ 0xFFE := by
  simp [State.fetchInside]

theorem inFont_iff (a : Nat) : inFont a = true ↔ 0x050 ≤ a ∧ a ≤ 0x09F := by
  rw [inFont, decide_eq_true_iff]; simp only [Config.fontBase, Config.fontSize]; omega

/-- `init` accepts a ROM of at most 3584 bytes (R121). -/
theorem romFits_iff (rom : List Byte) : romFits rom = true ↔ rom.length ≤ 3584 := by
  rw [romFits, decide_eq_true_iff]; rfl

/-- `sound_on` says ST > 0 (R33). -/
theorem State.soundOn_iff (s : State) : s.soundOn = true ↔ 0 < s.st.toNat := by
  rw [State.soundOn, decide_eq_true_iff]

/-! ### Loads and stores through I -/

/-- A read after a run of bytes stored: the byte of the run, or what was there (R38, R44). -/
theorem State.readByte_writeBytes (s : State) (a q : Nat) (bytes : List Byte) :
    (s.writeBytes a bytes).readByte q =
      if a ≤ q ∧ q < a + bytes.length then bytes.getD (q - a) 0 else s.readByte q :=
  Memory.read_writeBytes bytes s.mem a q

/-- Outside the bytes stored, every address reads as before. -/
theorem State.readByte_writeBytes_of_outside {s : State} {a q : Nat} {bytes : List Byte}
    (h : q < a ∨ a + bytes.length ≤ q) : (s.writeBytes a bytes).readByte q = s.readByte q :=
  Memory.read_writeBytes_of_outside h

@[simp] theorem State.length_readBytes (s : State) (a len : Nat) : (s.readBytes a len).length = len :=
  Memory.length_readBytes s.mem a len

/-- The k-th byte of a multi-byte read is the byte at `a + k` (R38). -/
theorem State.getElem_readBytes {s : State} {a len k : Nat} (h : k < (s.readBytes a len).length) :
    (s.readBytes a len)[k] = s.readByte (a + k) :=
  Memory.getElem_readBytes h

/-- What a state reads depends on its memory and the parameters alone. -/
theorem State.readByte_congr {s t : State} (hm : t.mem = s.mem) (hp : t.params = s.params) (q : Nat) :
    t.readByte q = s.readByte q := by
  rw [State.readByte, State.readByte, hm, hp]

/-- A load either faults on its range, changing STATUS alone, or goes on with the bytes at I (R41). -/
theorem loadBytes_cases {w : Word} {len : Nat} {cont : List Byte → State} {s t : State}
    (h : loadBytes w len cont s = .next t) :
    (s.rangeFaults len = true ∧ t = s.raiseRange w) ∨
    (s.rangeFaults len = false ∧ t = cont (s.readBytes s.i.toNat len)) := by
  unfold loadBytes at h
  split at h <;> cases h <;> rename_i hr
  · exact .inl ⟨hr, rfl⟩
  · exact .inr ⟨Bool.not_eq_true _ ▸ hr, rfl⟩

/-- A load inside memory goes on with the bytes at I. -/
theorem loadBytes_of_inside {w : Word} {len : Nat} {cont : List Byte → State} {s : State}
    (h : s.rangeFaults len = false) :
    loadBytes w len cont s = .next (cont (s.readBytes s.i.toNat len)) := by
  simp [loadBytes, h]

/-- A store faults on its range, or else on the font region, changing STATUS alone, or else writes all its bytes and
advances (R36, R41, R108). -/
theorem storeBytes_cases {w : Word} {bytes : List Byte} {s t : State} (h : storeBytes w bytes s = .next t) :
    (s.rangeFaults bytes.length = true ∧ t = s.raiseRange w) ∨
    (s.rangeFaults bytes.length = false ∧ ∃ a, fontHit s.i.toNat bytes.length = some a ∧ t = s.raiseFont w a) ∨
    (s.rangeFaults bytes.length = false ∧ fontHit s.i.toNat bytes.length = none ∧
      t = (s.writeBytes s.i.toNat bytes).advance) := by
  unfold storeBytes at h
  split at h
  · cases h; exact .inl ⟨‹_›, rfl⟩
  · rename_i hn
    have hr : s.rangeFaults bytes.length = false := Bool.not_eq_true _ ▸ hn
    split at h <;> cases h
    · exact .inr (.inl ⟨hr, _, ‹_›, rfl⟩)
    · exact .inr (.inr ⟨hr, ‹_›, rfl⟩)

/-- A store that passes both checks writes its bytes and advances. -/
theorem storeBytes_of_clear {w : Word} {bytes : List Byte} {s : State} (h : s.rangeFaults bytes.length = false)
    (hf : fontHit s.i.toNat bytes.length = none) :
    storeBytes w bytes s = .next ((s.writeBytes s.i.toNat bytes).advance) := by
  simp [storeBytes, h, hf]

@[simp] theorem length_bcdDigits (b : Byte) : (bcdDigits b).length = 3 := rfl

@[simp] theorem State.length_regsUpTo (s : State) (x : Reg) : (s.regsUpTo x).length = x.toNat + 1 := by
  have := x.isLt
  simp [State.regsUpTo]; omega

/-- The k-th byte that Fx55 stores is `V[k]` (R90). -/
theorem State.getElem_regsUpTo {s : State} {x : Reg} {k : Nat} (h : k < (s.regsUpTo x).length) :
    (s.regsUpTo x)[k] = s.getV (BitVec.ofNat 4 k) := by
  have hx := x.isLt
  have hk : k < 16 := by rw [State.length_regsUpTo] at h; omega
  simp [State.regsUpTo, State.getV, Nat.mod_eq_of_lt hk]

/-! ### The call stack (R23) -/

theorem State.push_cases (s : State) (a : Word) :
    (s.params.stackDepth ≤ s.stack.length ∧ s.push a = none) ∨
    (s.stack.length < s.params.stackDepth ∧ s.push a = some { s with stack := a :: s.stack }) := by
  unfold State.push
  split
  · exact .inl ⟨‹_›, rfl⟩
  · exact .inr ⟨by omega, rfl⟩

theorem State.pop_cases (s : State) :
    (s.stack = [] ∧ s.pop = none) ∨
    (∃ a rest, s.stack = a :: rest ∧ s.pop = some (a, { s with stack := rest })) := by
  unfold State.pop
  split
  · exact .inl ⟨‹_›, rfl⟩
  · exact .inr ⟨_, _, ‹_›, rfl⟩

/-! ### The key wait (R104) -/

/-- The key a poll completes on is pressed, was released when last observed, and is the lowest such key. -/
theorem newKey_some {keys base : Word} {k : Nat} (h : newKey keys base = some k) :
    k < 16 ∧ (keys &&& ~~~base).getLsbD k = true ∧ ∀ j, j < k → (keys &&& ~~~base).getLsbD j = false := by
  unfold newKey at h
  have h' := List.find?_range_eq_some.1 h
  exact ⟨List.mem_range.1 h'.2.1, h'.1, fun j hj => by rw [← Bool.not_eq_true']; exact h'.2.2 j hj⟩

/-- A poll that finds no new key has none to find. -/
theorem newKey_none {keys base : Word} : newKey keys base = none ↔ keys &&& ~~~base = 0#16 := by
  constructor
  · intro h
    apply BitVec.eq_of_getLsbD_eq
    intro k hk
    simp only [newKey, List.find?_eq_none, List.mem_range] at h
    have := h k hk
    simpa using this
  · intro h
    simp [newKey, h]

/-- A poll completes the wait or refreshes what it remembers. -/
theorem keyWaitPoll_cases (wx : Reg) (base : Word) (s : State) :
    (∃ k, newKey s.keys base = some k ∧
      keyWaitPoll wx base s = State.advance { s.setV wx (BitVec.ofNat 8 k) with status := .running }) ∨
    (newKey s.keys base = none ∧ keyWaitPoll wx base s = { s with status := .waiting wx s.keys }) := by
  unfold keyWaitPoll
  split
  · exact .inl ⟨_, ‹_›, rfl⟩
  · exact .inr ⟨‹_›, rfl⟩

end Sys2Proof.Machine
end

