-- ==== Sys2Proof/Laws/Exec.lean ====
section
/-! SUPPORT. The six instructions that can fault, each with everything it can do; every other arm of `exec` is a next state by
definition. -/

namespace Sys2Proof.Machine

/-- RET: StackUnderflow, or a return (R63). -/
theorem execRet_cases (s : State) :
    (s.stack = [] ∧ exec .ret s = .next (s.raise .stackUnderflow (some (encode .ret)) none false)) ∨
    (∃ a rest, s.stack = a :: rest ∧ exec .ret s = .next (State.jump { s with stack := rest } a)) := by
  rcases s.pop_cases with ⟨h, hp⟩ | ⟨a, rest, h, hp⟩
  · exact .inl ⟨h, by rw [exec, execRet, hp]⟩
  · exact .inr ⟨a, rest, h, by rw [exec, execRet, hp]⟩

/-- CALL: StackOverflow, or a call (R65). -/
theorem execCall_cases (nnn : Addr12) (s : State) :
    (s.params.stackDepth ≤ s.stack.length ∧
      exec (.call nnn) s = .next (s.raise .stackOverflow (some (encode (.call nnn))) none false)) ∨
    (s.stack.length < s.params.stackDepth ∧
      exec (.call nnn) s = .next (State.jump { s with stack := (s.pc + 2) :: s.stack } (addrOf nnn))) := by
  rcases s.push_cases (s.pc + 2) with ⟨h, hp⟩ | ⟨h, hp⟩
  · exact .inl ⟨h, by rw [exec, execCall, hp]⟩
  · exact .inr ⟨h, by rw [exec, execCall, hp]⟩

/-- DRW: a range fault, or the sprite at I drawn (R93). -/
theorem execDrw_cases (x y : Reg) (n : Nibble) (s : State) :
    (s.rangeFaults n.toNat = true ∧ exec (.drw x y n) s = .next (s.raiseRange (encode (.drw x y n)))) ∨
    (s.rangeFaults n.toNat = false ∧
      exec (.drw x y n) s = .next (s.drawSprite x y (s.readBytes s.i.toNat n.toNat)).advance) := by
  by_cases h : s.rangeFaults n.toNat = true
  · exact .inl ⟨h, by rw [exec, execDrw, loadBytes, if_pos h]⟩
  · exact .inr ⟨Bool.not_eq_true _ ▸ h, by rw [exec, execDrw, loadBytes, if_neg h]⟩

/-- LD Vx, [I]: a range fault, or the registers loaded (R91). -/
theorem execLdVxMem_cases (x : Reg) (s : State) :
    (s.rangeFaults (x.toNat + 1) = true ∧ exec (.ldVxMem x) s = .next (s.raiseRange (encode (.ldVxMem x)))) ∨
    (s.rangeFaults (x.toNat + 1) = false ∧
      exec (.ldVxMem x) s = .next (s.loadRegs (s.readBytes s.i.toNat (x.toNat + 1))).advance) := by
  by_cases h : s.rangeFaults (x.toNat + 1) = true
  · exact .inl ⟨h, by rw [exec, execLdVxMem, loadBytes, if_pos h]⟩
  · exact .inr ⟨Bool.not_eq_true _ ▸ h, by rw [exec, execLdVxMem, loadBytes, if_neg h]⟩

/-- A store-class instruction: a range fault, a font fault, or all its bytes stored at I (R36, R41, R108). -/
theorem storeBytes_result (w : Word) (bytes : List Byte) (s : State) :
    (s.rangeFaults bytes.length = true ∧ storeBytes w bytes s = .next (s.raiseRange w)) ∨
    (s.rangeFaults bytes.length = false ∧
      ∃ a, fontHit s.i.toNat bytes.length = some a ∧ storeBytes w bytes s = .next (s.raiseFont w a)) ∨
    (s.rangeFaults bytes.length = false ∧ fontHit s.i.toNat bytes.length = none ∧
      storeBytes w bytes s = .next ((s.writeBytes s.i.toNat bytes).advance)) := by
  by_cases h : s.rangeFaults bytes.length = true
  · exact .inl ⟨h, by rw [storeBytes, if_pos h]⟩
  · have hr : s.rangeFaults bytes.length = false := Bool.not_eq_true _ ▸ h
    cases hf : fontHit s.i.toNat bytes.length with
    | some a => exact .inr (.inl ⟨hr, a, rfl, by rw [storeBytes, if_neg h, hf]⟩)
    | none => exact .inr (.inr ⟨hr, rfl, by rw [storeBytes, if_neg h, hf]⟩)

/-- LD B, Vx: a range fault, a font fault, or the three digits stored (R89). -/
theorem execLdB_cases (x : Reg) (s : State) :
    (s.rangeFaults 3 = true ∧ exec (.ldB x) s = .next (s.raiseRange (encode (.ldB x)))) ∨
    (s.rangeFaults 3 = false ∧
      ∃ a, fontHit s.i.toNat 3 = some a ∧ exec (.ldB x) s = .next (s.raiseFont (encode (.ldB x)) a)) ∨
    (s.rangeFaults 3 = false ∧ fontHit s.i.toNat 3 = none ∧ exec (.ldB x) s = .next
      ((s.writeBytes s.i.toNat (bcdDigits (s.getV x))).advance)) :=
  storeBytes_result (encode (.ldB x)) (bcdDigits (s.getV x)) s

/-- LD [I], Vx: a range fault, a font fault, or V0..Vx stored (R90). -/
theorem execLdMemVx_cases (x : Reg) (s : State) :
    (s.rangeFaults (x.toNat + 1) = true ∧ exec (.ldMemVx x) s = .next (s.raiseRange (encode (.ldMemVx x)))) ∨
    (s.rangeFaults (x.toNat + 1) = false ∧ ∃ a, fontHit s.i.toNat (x.toNat + 1) = some a ∧
      exec (.ldMemVx x) s = .next (s.raiseFont (encode (.ldMemVx x)) a)) ∨
    (s.rangeFaults (x.toNat + 1) = false ∧ fontHit s.i.toNat (x.toNat + 1) = none ∧ exec (.ldMemVx x) s = .next
      ((s.writeBytes s.i.toNat (s.regsUpTo x)).advance)) := by
  have h := storeBytes_result (encode (.ldMemVx x)) (s.regsUpTo x) s
  rwa [State.length_regsUpTo] at h

/-- `exec` with a next state, put together from a case that names it. -/
theorem next_inj {t u : State} {o : Result} (h : o = .next t) (h' : o = .next u) : u = t := by
  rw [h] at h'; cases h'; rfl

end Sys2Proof.Machine
end

