-- ==== Sys2Proof/Laws/PerInstr.lean ====
section
/-! SUPPORT. The statement made for each instruction: it is well formed, and its word spells its own row of the opcode map
(R53). -/

namespace Sys2Proof

/-- The instruction's row is a row of the opcode map, and its encoding matches that row (R53). -/
def Laws.SpellsRow.Statement (i : Instr) : Prop := i.wellFormed = true ∧ i.row.spells (encode i) = true

/-- Masking `base | x << 8 | y << 4` with 0xF00F leaves the base. -/
theorem wordXY_masked (b : Word) (x y : Reg) : wordXY b x y &&& 0xF00F#16 = b &&& 0xF00F#16 := by
  ext k hk; interval_cases k <;> simp [wordXY]

/-- Masking `base | x << 8 | y << 4 | n` with 0xF000 leaves the base. -/
theorem wordXYN_masked (b : Word) (x y : Reg) (n : Nibble) : wordXYN b x y n &&& 0xF000#16 = b &&& 0xF000#16 := by
  ext k hk; interval_cases k <;> simp [wordXYN, wordXY]

/-- Masking `base | x << 8 | nn` with 0xF000 leaves the base. -/
theorem wordXNN_masked (b : Word) (x : Reg) (nn : Byte) : wordXNN b x nn &&& 0xF000#16 = b &&& 0xF000#16 := by
  ext k hk; interval_cases k <;> simp [wordXNN]

/-- Masking `base | x << 8` with 0xF0FF leaves the base. -/
theorem wordX_masked (b : Word) (x : Reg) : wordX b x &&& 0xF0FF#16 = b &&& 0xF0FF#16 := by
  ext k hk; interval_cases k <;> simp [wordX]

/-- Masking `base | nnn` with 0xF000 leaves the base. -/
theorem wordNNN_masked (b : Word) (nnn : Addr12) : wordNNN b nnn &&& 0xF000#16 = b &&& 0xF000#16 := by
  ext k hk; interval_cases k <;> simp [wordNNN]

theorem Laws.SpellsRow.cls : Laws.SpellsRow.Statement .cls :=
  ⟨by decide, by decide⟩

theorem Laws.SpellsRow.ret : Laws.SpellsRow.Statement .ret :=
  ⟨by decide, by decide⟩

theorem Laws.SpellsRow.jp (nnn : Addr12) : Laws.SpellsRow.Statement (.jp nnn) :=
  ⟨by rw [Instr.wellFormed, Instr.row]; decide, by simp [OpcodeRow.spells, encode, Instr.row, wordNNN_masked]⟩

theorem Laws.SpellsRow.call (nnn : Addr12) : Laws.SpellsRow.Statement (.call nnn) :=
  ⟨by rw [Instr.wellFormed, Instr.row]; decide, by simp [OpcodeRow.spells, encode, Instr.row, wordNNN_masked]⟩

theorem Laws.SpellsRow.seImm (x : Reg) (nn : Byte) : Laws.SpellsRow.Statement (.seImm x nn) :=
  ⟨by rw [Instr.wellFormed, Instr.row]; decide, by simp [OpcodeRow.spells, encode, Instr.row, wordXNN_masked]⟩

theorem Laws.SpellsRow.sneImm (x : Reg) (nn : Byte) : Laws.SpellsRow.Statement (.sneImm x nn) :=
  ⟨by rw [Instr.wellFormed, Instr.row]; decide, by simp [OpcodeRow.spells, encode, Instr.row, wordXNN_masked]⟩

theorem Laws.SpellsRow.seReg (x y : Reg) : Laws.SpellsRow.Statement (.seReg x y) :=
  ⟨by rw [Instr.wellFormed, Instr.row]; decide, by simp [OpcodeRow.spells, encode, Instr.row, wordXY_masked]⟩

theorem Laws.SpellsRow.ldImm (x : Reg) (nn : Byte) : Laws.SpellsRow.Statement (.ldImm x nn) :=
  ⟨by rw [Instr.wellFormed, Instr.row]; decide, by simp [OpcodeRow.spells, encode, Instr.row, wordXNN_masked]⟩

theorem Laws.SpellsRow.addImm (x : Reg) (nn : Byte) : Laws.SpellsRow.Statement (.addImm x nn) :=
  ⟨by rw [Instr.wellFormed, Instr.row]; decide, by simp [OpcodeRow.spells, encode, Instr.row, wordXNN_masked]⟩

theorem Laws.SpellsRow.ldReg (x y : Reg) : Laws.SpellsRow.Statement (.ldReg x y) :=
  ⟨by rw [Instr.wellFormed, Instr.row]; decide, by simp [OpcodeRow.spells, encode, Instr.row, wordXY_masked]⟩

theorem Laws.SpellsRow.orReg (x y : Reg) : Laws.SpellsRow.Statement (.orReg x y) :=
  ⟨by rw [Instr.wellFormed, Instr.row]; decide, by simp [OpcodeRow.spells, encode, Instr.row, wordXY_masked]⟩

theorem Laws.SpellsRow.andReg (x y : Reg) : Laws.SpellsRow.Statement (.andReg x y) :=
  ⟨by rw [Instr.wellFormed, Instr.row]; decide, by simp [OpcodeRow.spells, encode, Instr.row, wordXY_masked]⟩

theorem Laws.SpellsRow.xorReg (x y : Reg) : Laws.SpellsRow.Statement (.xorReg x y) :=
  ⟨by rw [Instr.wellFormed, Instr.row]; decide, by simp [OpcodeRow.spells, encode, Instr.row, wordXY_masked]⟩

theorem Laws.SpellsRow.addReg (x y : Reg) : Laws.SpellsRow.Statement (.addReg x y) :=
  ⟨by rw [Instr.wellFormed, Instr.row]; decide, by simp [OpcodeRow.spells, encode, Instr.row, wordXY_masked]⟩

theorem Laws.SpellsRow.subReg (x y : Reg) : Laws.SpellsRow.Statement (.subReg x y) :=
  ⟨by rw [Instr.wellFormed, Instr.row]; decide, by simp [OpcodeRow.spells, encode, Instr.row, wordXY_masked]⟩

theorem Laws.SpellsRow.shrReg (x y : Reg) : Laws.SpellsRow.Statement (.shrReg x y) :=
  ⟨by rw [Instr.wellFormed, Instr.row]; decide, by simp [OpcodeRow.spells, encode, Instr.row, wordXY_masked]⟩

theorem Laws.SpellsRow.subnReg (x y : Reg) : Laws.SpellsRow.Statement (.subnReg x y) :=
  ⟨by rw [Instr.wellFormed, Instr.row]; decide, by simp [OpcodeRow.spells, encode, Instr.row, wordXY_masked]⟩

theorem Laws.SpellsRow.shlReg (x y : Reg) : Laws.SpellsRow.Statement (.shlReg x y) :=
  ⟨by rw [Instr.wellFormed, Instr.row]; decide, by simp [OpcodeRow.spells, encode, Instr.row, wordXY_masked]⟩

theorem Laws.SpellsRow.sneReg (x y : Reg) : Laws.SpellsRow.Statement (.sneReg x y) :=
  ⟨by rw [Instr.wellFormed, Instr.row]; decide, by simp [OpcodeRow.spells, encode, Instr.row, wordXY_masked]⟩

theorem Laws.SpellsRow.ldI (nnn : Addr12) : Laws.SpellsRow.Statement (.ldI nnn) :=
  ⟨by rw [Instr.wellFormed, Instr.row]; decide, by simp [OpcodeRow.spells, encode, Instr.row, wordNNN_masked]⟩

theorem Laws.SpellsRow.jpV0 (nnn : Addr12) : Laws.SpellsRow.Statement (.jpV0 nnn) :=
  ⟨by rw [Instr.wellFormed, Instr.row]; decide, by simp [OpcodeRow.spells, encode, Instr.row, wordNNN_masked]⟩

theorem Laws.SpellsRow.rnd (x : Reg) (nn : Byte) : Laws.SpellsRow.Statement (.rnd x nn) :=
  ⟨by rw [Instr.wellFormed, Instr.row]; decide, by simp [OpcodeRow.spells, encode, Instr.row, wordXNN_masked]⟩

theorem Laws.SpellsRow.drw (x y : Reg) (n : Nibble) : Laws.SpellsRow.Statement (.drw x y n) :=
  ⟨by rw [Instr.wellFormed, Instr.row]; decide, by simp [OpcodeRow.spells, encode, Instr.row, wordXYN_masked]⟩

theorem Laws.SpellsRow.skp (x : Reg) : Laws.SpellsRow.Statement (.skp x) :=
  ⟨by rw [Instr.wellFormed, Instr.row]; decide, by simp [OpcodeRow.spells, encode, Instr.row, wordX_masked]⟩

theorem Laws.SpellsRow.sknp (x : Reg) : Laws.SpellsRow.Statement (.sknp x) :=
  ⟨by rw [Instr.wellFormed, Instr.row]; decide, by simp [OpcodeRow.spells, encode, Instr.row, wordX_masked]⟩

theorem Laws.SpellsRow.ldVxDT (x : Reg) : Laws.SpellsRow.Statement (.ldVxDT x) :=
  ⟨by rw [Instr.wellFormed, Instr.row]; decide, by simp [OpcodeRow.spells, encode, Instr.row, wordX_masked]⟩

theorem Laws.SpellsRow.ldVxK (x : Reg) : Laws.SpellsRow.Statement (.ldVxK x) :=
  ⟨by rw [Instr.wellFormed, Instr.row]; decide, by simp [OpcodeRow.spells, encode, Instr.row, wordX_masked]⟩

theorem Laws.SpellsRow.ldDTVx (x : Reg) : Laws.SpellsRow.Statement (.ldDTVx x) :=
  ⟨by rw [Instr.wellFormed, Instr.row]; decide, by simp [OpcodeRow.spells, encode, Instr.row, wordX_masked]⟩

theorem Laws.SpellsRow.ldSTVx (x : Reg) : Laws.SpellsRow.Statement (.ldSTVx x) :=
  ⟨by rw [Instr.wellFormed, Instr.row]; decide, by simp [OpcodeRow.spells, encode, Instr.row, wordX_masked]⟩

theorem Laws.SpellsRow.addI (x : Reg) : Laws.SpellsRow.Statement (.addI x) :=
  ⟨by rw [Instr.wellFormed, Instr.row]; decide, by simp [OpcodeRow.spells, encode, Instr.row, wordX_masked]⟩

theorem Laws.SpellsRow.ldF (x : Reg) : Laws.SpellsRow.Statement (.ldF x) :=
  ⟨by rw [Instr.wellFormed, Instr.row]; decide, by simp [OpcodeRow.spells, encode, Instr.row, wordX_masked]⟩

theorem Laws.SpellsRow.ldB (x : Reg) : Laws.SpellsRow.Statement (.ldB x) :=
  ⟨by rw [Instr.wellFormed, Instr.row]; decide, by simp [OpcodeRow.spells, encode, Instr.row, wordX_masked]⟩

theorem Laws.SpellsRow.ldMemVx (x : Reg) : Laws.SpellsRow.Statement (.ldMemVx x) :=
  ⟨by rw [Instr.wellFormed, Instr.row]; decide, by simp [OpcodeRow.spells, encode, Instr.row, wordX_masked]⟩

theorem Laws.SpellsRow.ldVxMem (x : Reg) : Laws.SpellsRow.Statement (.ldVxMem x) :=
  ⟨by rw [Instr.wellFormed, Instr.row]; decide, by simp [OpcodeRow.spells, encode, Instr.row, wordX_masked]⟩

end Sys2Proof
end

