-- ==== Sys2Proof/Laws/Step.lean ====
section
/-! SUPPORT. What a step can do, said once: derive every invariant from these instead of unfolding `step`. -/

namespace Sys2Proof.Machine

/-- The core's step transaction (R59): a faulted core is left as it is, a waiting one polls, a running one faults on the
fetch, or on the word, or executes the instruction the word spells. -/
theorem stepTransaction_cases {s t : State} (h : stepTransaction s = .next t) :
    (∃ f, s.status = .faulted f ∧ t = s) ∨
    (∃ wx b, s.status = .waiting wx b ∧ t = keyWaitPoll wx b s) ∨
    (s.status = .running ∧ s.fetchInside = false ∧ t = s.raiseFetch) ∨
    (s.status = .running ∧ s.fetchInside = true ∧ (∃ e, decode s.fetchWord = .error e) ∧
      t = s.raiseInvalid s.fetchWord) ∨
    (s.status = .running ∧ s.fetchInside = true ∧ ∃ i, decode s.fetchWord = .ok i ∧ exec i s = .next t) := by
  unfold stepTransaction at h
  split at h
  · cases h; exact .inl ⟨_, ‹_›, rfl⟩
  · cases h; exact .inr (.inl ⟨_, _, ‹_›, rfl⟩)
  · rename_i hs
    unfold runningStep at h
    split at h
    · rename_i hf
      split at h
      · exact .inr (.inr (.inr (.inr ⟨hs, hf, _, ‹_›, h⟩)))
      · cases h; exact .inr (.inr (.inr (.inl ⟨hs, hf, ⟨_, ‹_›⟩, rfl⟩)))
    · rename_i hf; cases h; exact .inr (.inr (.inl ⟨hs, Bool.not_eq_true _ ▸ hf, rfl⟩))

/-- One step of the machine is one transaction: a core step, a tick, a key update, an accepted `init` or a refused one
(R32, R121). -/
theorem step_cases {s t : State} (h : step s = .next t) :
    (s.nextTransaction = .step ∧ stepTransaction s.takeTransaction = .next t) ∨
    (s.nextTransaction = .tick ∧ t = s.takeTransaction.tick) ∨
    (∃ k, s.nextTransaction = .setKeys k ∧ t = s.takeTransaction.setKeys k) ∨
    (∃ rom, s.nextTransaction = .init rom ∧ romFits rom = true ∧ s.takeTransaction.init rom = some t) ∨
    (∃ rom, s.nextTransaction = .init rom ∧ romFits rom = false ∧ t = s.takeTransaction) := by
  unfold step transact at h
  split at h
  · exact .inl ⟨‹_›, h⟩
  · cases h; exact .inr (.inl ⟨‹_›, rfl⟩)
  · cases h; exact .inr (.inr (.inl ⟨_, ‹_›, rfl⟩))
  · rename_i rom hn
    cases h
    by_cases hf : romFits rom = true
    · exact .inr (.inr (.inr (.inl ⟨rom, hn, hf, by simp [State.init, hf]⟩)))
    · have hf' : romFits rom = false := by simpa using hf
      exact .inr (.inr (.inr (.inr ⟨rom, hn, hf', by simp [State.init, hf']⟩)))

end Sys2Proof.Machine
end

