-- ==== Sys2Proof/Tests/Slice0.lean ====
section
/-! SUPPORT. Tests: what is ill formed is refused, a word of every instruction written out from the spec's encoding of it,
one step of every instruction from the spec's own vectors (spec/95_test_vectors.md: S, CF, A, M, DR, T and ST rows), and a
witness for the hypotheses of every statement that has some. -/

namespace Sys2Proof.Tests

open Sys2Proof Sys2Proof.Machine

/-! ### Helpers: small states, and what one step leaves -/

/-- The word `w` at PC of `s`, ready to run. -/
def start (w : Word) (s : State := State.reset) : State := s.placeWord w

/-- The reset state with some registers set. -/
def regs (l : List (Reg × Byte)) : State := l.foldl (fun s p => s.setV p.1 p.2) State.reset

/-- `s` with I set. -/
def withI (i : Word) (s : State) : State := { s with i := i }

/-- `s` with bytes stored from `a` on. -/
def withMem (a : Nat) (bytes : List Byte) (s : State) : State := s.writeBytes a bytes

/-- `s` with PC set. -/
def withPc (pc : Word) (s : State) : State := { s with pc := pc }

/-- `s` with a call stack of `n` entries, all `a`. -/
def withStack (n : Nat) (a : Word) (s : State) : State := { s with stack := List.replicate n a }

/-- `s` with the pixel at row `r`, column `c` set. -/
def withPixel (r c : Nat) (s : State) : State := { s with fb := (drawPixel r c (s.fb, false)).1 }

/-- `s` with one transaction scheduled. -/
def withNext (t : Transaction) (s : State) : State := { s with schedule := [t] }

/-- `f` of the state a step leaves. -/
def see {α : Type} (s : State) (f : State → α) : Option α :=
  match step s with
  | .next t => some (f t)
  | .fault _ => none
  | .refused _ => none

/-- Three registers and PC. -/
def view (a b c : Reg) (t : State) : Byte × Byte × Byte × Word := (t.getV a, t.getV b, t.getV c, t.pc)

/-- The bytes of `t` from `a` on. -/
def bytesAt (a len : Nat) (t : State) : List Byte := t.readBytes a len

/-- STATUS after a fault. -/
def faultOf (kind : Fault) (fpc : Word) (finstr faddr : Option Word) (isProtected : Bool) : Status :=
  .faulted (.mk kind fpc finstr faddr isProtected)

/-! ### What is ill formed is refused -/

/-- R55's example, and the words next to a legal one: refused; R61's legal ones: accepted. -/
theorem test_illegal_words_refused :
    Word.isLegal 0x5001 = false ∧ Word.isLegal 0x0123 = false ∧ Word.isLegal 0xE19F = false ∧
    Word.isLegal 0x8008 = false ∧ Word.isLegal 0x9121 = false ∧ Word.isLegal 0xF034 = false ∧
    Word.isLegal 0xD125 = true ∧ Word.isLegal 0x8AB6 = true ∧ Word.isLegal 0xF365 = true := by decide

/-- A row that is not in the opcode map is refused; an instruction's own row is in it. -/
theorem test_foreign_row_refused :
    opcodeMap.contains ⟨0x8008, 0xF00F⟩ = false ∧ Instr.wellFormed (.drw 1 2 5) = true := by decide

/-- R121: a ROM of 3584 bytes fits, one of 3585 bytes is refused. -/
theorem test_rom_too_long_refused :
    romFits (List.replicate 3584 0) = true ∧ romFits (List.replicate 3585 0) = false :=
  ⟨by rw [romFits, List.length_replicate]; decide, by rw [romFits, List.length_replicate]; decide⟩

/-- A register range that would list a byte out of order, outside memory or as it reads anyway is no canonical memory. -/
theorem test_memory_form_refused :
    Memory.wf hardwareFont [(0x201, 1), (0x200, 1)] = false ∧ Memory.wf hardwareFont [(0x1000, 1)] = false ∧ Memory.wf hardwareFont [(0x200, 0)] = false ∧
    Memory.wf hardwareFont [(0x050, 0xF0)] = false ∧ Memory.wf hardwareFont [(0x200, 1), (0x201, 2)] = true := by decide

/-! ### Decoding: the words are written out from the encodings of the instructions' own rules -/

theorem test_decode_control_flow :
    decode 0x00EE = .ok (.ret) ∧
    decode 0x1234 = .ok (.jp 0x234) ∧
    decode 0x2300 = .ok (.call 0x300) ∧
    decode 0x3312 = .ok (.seImm 3 0x12) ∧
    decode 0x4312 = .ok (.sneImm 3 0x12) ∧
    decode 0x5120 = .ok (.seReg 1 2) ∧
    decode 0x9120 = .ok (.sneReg 1 2) ∧
    decode 0xB3A0 = .ok (.jpV0 0x3A0) := by decide

theorem test_decode_alu :
    decode 0x6A42 = .ok (.ldImm 0xA 0x42) ∧
    decode 0x7102 = .ok (.addImm 1 0x02) ∧
    decode 0x8120 = .ok (.ldReg 1 2) ∧
    decode 0x8011 = .ok (.orReg 0 1) ∧
    decode 0x8012 = .ok (.andReg 0 1) ∧
    decode 0x8013 = .ok (.xorReg 0 1) ∧
    decode 0x8014 = .ok (.addReg 0 1) ∧
    decode 0x8F15 = .ok (.subReg 0xF 1) := by decide

theorem test_decode_shifts_and_random :
    decode 0x8AB6 = .ok (.shrReg 0xA 0xB) ∧
    decode 0x8017 = .ok (.subnReg 0 1) ∧
    decode 0x801E = .ok (.shlReg 0 1) ∧
    decode 0xC30F = .ok (.rnd 3 0x0F) := by decide

theorem test_decode_index_memory :
    decode 0xA300 = .ok (.ldI 0x300) ∧
    decode 0xF21E = .ok (.addI 2) ∧
    decode 0xF029 = .ok (.ldF 0) ∧
    decode 0xF033 = .ok (.ldB 0) ∧
    decode 0xF155 = .ok (.ldMemVx 1) ∧
    decode 0xF365 = .ok (.ldVxMem 3) := by decide

theorem test_decode_draw :
    decode 0x00E0 = .ok (.cls) ∧
    decode 0xD125 = .ok (.drw 1 2 5) := by decide

theorem test_decode_timer_keypad :
    decode 0xE59E = .ok (.skp 5) ∧
    decode 0xE5A1 = .ok (.sknp 5) ∧
    decode 0xF507 = .ok (.ldVxDT 5) ∧
    decode 0xF30A = .ok (.ldVxK 3) ∧
    decode 0xF515 = .ok (.ldDTVx 5) ∧
    decode 0xF518 = .ok (.ldSTVx 5) := by decide

/-- R55: one illegal word of every line of the rule's list. -/
theorem test_decode_illegal :
    decode 0x0000 = .error (.invalidOpcode 0x0000) ∧ decode 0x500F = .error (.invalidOpcode 0x500F) ∧
    decode 0x8018 = .error (.invalidOpcode 0x8018) ∧ decode 0x800D = .error (.invalidOpcode 0x800D) ∧
    decode 0x800F = .error (.invalidOpcode 0x800F) ∧ decode 0x9121 = .error (.invalidOpcode 0x9121) ∧
    decode 0xE59F = .error (.invalidOpcode 0xE59F) ∧ decode 0xF0FF = .error (.invalidOpcode 0xF0FF) := by decide

/-- The table's bit numbering: bit 0 is the word's least significant bit; the bytes go most significant first (R37). -/
theorem test_table_word :
    decodeTableWord 16 0xD125 = some (.drw 1 2 5) ∧ decodeTableWord 16 0x5001 = none ∧
    decodeBytes [0xD1, 0x25, 0x60] = .ok (.drw 1 2 5, [0x60]) ∧ decodeBytes [0xD1] = .error .truncated := by decide

/-! ### One step of every instruction -/

/-- CF2: the popped address is PC, and the stack is empty. -/
theorem test_ret :
    see (start 0x00EE (withStack 1 0x206 State.reset)) (fun t => (t.pc, t.stack)) = some (0x206, []) := by decide

/-- CF1. -/
theorem test_ret_underflow :
    see (start 0x00EE) (fun t => (t.pc, t.status)) =
      some (0x200, faultOf .stackUnderflow 0x200 (some 0x00EE) none false) := by decide

/-- CF3. -/
theorem test_jp :
    see (start 0x1234) (·.pc) = some 0x234 := by decide

/-- CF6: the return address pushed at the top of memory is 0x1000. -/
theorem test_call :
    see (start 0x2300 (withPc 0xFFE State.reset)) (fun t => (t.pc, t.stack)) = some (0x300, [0x1000]) := by decide

/-- CF5. -/
theorem test_call_overflow :
    see (start 0x2300 (withStack 16 0x202 State.reset)) (fun t => (t.pc, t.stack.length, t.status)) =
      some (0x200, 16, faultOf .stackOverflow 0x200 (some 0x2300) none false) := by decide

/-- CF7, CF8. -/
theorem test_se_imm :
    see (start 0x3312 (regs [(3, 0x12)])) (view 3 3 3) = some (0x12, 0x12, 0x12, 0x204) ∧
    see (start 0x3312 (regs [(3, 0x13)])) (view 3 3 3) = some (0x13, 0x13, 0x13, 0x202) := by decide

/-- CF10, CF11. -/
theorem test_sne_imm :
    see (start 0x4312 (regs [(3, 0x12)])) (view 3 3 3) = some (0x12, 0x12, 0x12, 0x202) ∧
    see (start 0x4312 (regs [(3, 0x13)])) (view 3 3 3) = some (0x13, 0x13, 0x13, 0x204) := by decide

/-- CF12, CF13. -/
theorem test_se_reg :
    see (start 0x5550 (regs [(5, 9)])) (view 5 5 5) = some (9, 9, 9, 0x204) ∧
    see (start 0x5120 (regs [(1, 7), (2, 8)])) (view 1 2 2) = some (7, 8, 8, 0x202) := by decide

/-- CF14, CF15. -/
theorem test_sne_reg :
    see (start 0x9550 (regs [(5, 9)])) (view 5 5 5) = some (9, 9, 9, 0x202) ∧
    see (start 0x9120 (regs [(1, 7), (2, 8)])) (view 1 2 2) = some (7, 8, 8, 0x204) := by decide

/-- CF9: a skip past 0xFFE is no fault of its own. -/
theorem test_skip_past_top :
    see (start 0x3312 (withPc 0xFFC (regs [(3, 0x12)]))) (fun t => (t.pc, t.status)) = some (0x1000, .running) :=
      by decide

/-- CF18: the exact sum, and no fault. -/
theorem test_jp_v0 :
    see (start 0xBFFF (regs [(0, 0xFF)])) (fun t => (t.pc, t.status)) = some (0x10FE, .running) := by decide

/-- CF19: the offset is V0, not Vx. -/
theorem test_jp_v0_register :
    see (start 0xB3A0 (regs [(3, 5)])) (·.pc) = some 0x3A0 := by decide

/-- A1. -/
theorem test_ld_imm :
    see (start 0x6A42 (regs [])) (view 0xA 0 regF) = some (0x42, 0, 0, 0x202) := by decide

/-- A2, A3: no flag. -/
theorem test_add_imm :
    see (start 0x7102 (regs [(1, 0xFF), (0xF, 0x55)])) (view 1 0 regF) = some (1, 0, 0x55, 0x202) ∧
    see (start 0x7F01 (regs [(0xF, 0xFF)])) (view regF 0 1) = some (0, 0, 0, 0x202) := by decide

/-- A4. -/
theorem test_ld_reg :
    see (start 0x8120 (regs [(2, 0x44)])) (view 1 2 regF) = some (0x44, 0x44, 0, 0x202) := by decide

/-- A5: VF unchanged. -/
theorem test_or_reg :
    see (start 0x8011 (regs [(0, 0x0F), (1, 0xF0), (0xF, 7)])) (view 0 1 regF) = some (0xFF, 0xF0, 7, 0x202) :=
      by decide

/-- A6. -/
theorem test_and_reg :
    see (start 0x8012 (regs [(0, 0x3C), (1, 0x0F)])) (view 0 1 regF) = some (0x0C, 0x0F, 0, 0x202) := by decide

/-- A7, A8. -/
theorem test_xor_reg :
    see (start 0x8013 (regs [(0, 0xFF), (1, 0x0F)])) (view 0 1 regF) = some (0xF0, 0x0F, 0, 0x202) ∧
    see (start 0x8333 (regs [(3, 0x5A)])) (view 3 0 regF) = some (0, 0, 0, 0x202) := by decide

/-- S3, A9: the carry is set, and cleared. -/
theorem test_add_reg :
    see (start 0x8014 (regs [(0, 0xFF), (1, 1)])) (view 0 1 regF) = some (0, 1, 1, 0x202) ∧
    see (start 0x8014 (regs [(0, 0x10), (1, 0x20), (0xF, 1)])) (view 0 1 regF) = some (0x30, 0x20, 0, 0x202) :=
      by decide

/-- A12, A13, A14: VF as destination, as source, and x = y. -/
theorem test_add_reg_vf :
    see (start 0x8F04 (regs [(0xF, 0xFF), (0, 2)])) (view regF 0 1) = some (1, 2, 0, 0x202) ∧
    see (start 0x80F4 (regs [(0, 0x10), (0xF, 1)])) (view 0 1 regF) = some (0x11, 0, 0, 0x202) ∧
    see (start 0x8334 (regs [(3, 0x81)])) (view 3 0 regF) = some (2, 0, 1, 0x202) := by decide

/-- S4, A15. -/
theorem test_sub_reg :
    see (start 0x8015 (regs [(0, 1), (1, 2)])) (view 0 1 regF) = some (0xFF, 2, 0, 0x202) ∧
    see (start 0x8015 (regs [(0, 5), (1, 5)])) (view 0 1 regF) = some (0, 5, 1, 0x202) := by decide

/-- A17, A18: VF ends as the flag. -/
theorem test_sub_reg_vf :
    see (start 0x8F15 (regs [(0xF, 1), (1, 2)])) (view regF 1 0) = some (0, 2, 0, 0x202) ∧
    see (start 0x8FF5 (regs [(0xF, 7)])) (view regF 1 0) = some (1, 0, 0, 0x202) := by decide

/-- A19, A20: Vy is shifted, Vx's old value is ignored. -/
theorem test_shr_reg :
    see (start 0x8016 (regs [(0, 0xAA), (1, 5)])) (view 0 1 regF) = some (2, 5, 1, 0x202) ∧
    see (start 0x8016 (regs [(1, 4), (0xF, 1)])) (view 0 1 regF) = some (2, 4, 0, 0x202) := by decide

/-- A21, A22. -/
theorem test_shr_reg_vf :
    see (start 0x8F16 (regs [(1, 3)])) (view regF 1 0) = some (1, 3, 0, 0x202) ∧
    see (start 0x8226 (regs [(2, 0x81)])) (view 2 0 regF) = some (0x40, 0, 1, 0x202) := by decide

/-- A23, A24, A25. -/
theorem test_subn_reg :
    see (start 0x8017 (regs [(0, 2), (1, 1)])) (view 0 1 regF) = some (0xFF, 1, 0, 0x202) ∧
    see (start 0x8017 (regs [(0, 1), (1, 2)])) (view 0 1 regF) = some (1, 2, 1, 0x202) ∧
    see (start 0x8017 (regs [(0, 9), (1, 9)])) (view 0 1 regF) = some (0, 9, 1, 0x202) := by decide

/-- A26, A27. -/
theorem test_shl_reg :
    see (start 0x801E (regs [(1, 0x81)])) (view 0 1 regF) = some (2, 0x81, 1, 0x202) ∧
    see (start 0x801E (regs [(1, 0x7F), (0xF, 1)])) (view 0 1 regF) = some (0xFE, 0x7F, 0, 0x202) := by decide

/-- A28. -/
theorem test_shl_reg_vf :
    see (start 0x8F1E (regs [(1, 0x80)])) (view regF 1 0) = some (1, 0x80, 0, 0x202) := by decide

/-- A29, A30: with the draw given as an argument. -/
theorem test_rnd_masks_the_draw :
    view 3 0 1 (rndWith 0xA5 3 0x0F State.reset) = (5, 0, 0, 0x202) ∧
    view 3 0 1 (rndWith 0xFF 3 0x00 (regs [(3, 9)])) = (0, 0, 0, 0x202) := by decide

/-- R84: each RND takes the next draw of the sequence. -/
theorem test_rnd_draws_in_order :
    see (start 0xC3FF) (fun t => (t.draws, t.pc)) = some (1, 0x202) ∧
    see (start 0xC3FF) (·.getV 3) = some (Config.randomByte 0 &&& 0xFF) := ⟨by rfl, by rfl⟩

/-- M1. -/
theorem test_ld_i :
    see (start 0xA300) (fun t => (t.i, t.pc)) = some (0x300, 0x202) := by decide

/-- M2, M3: VF is cleared without an overflow and set with one. -/
theorem test_add_i :
    see (start 0xF21E (withI 0x100 (regs [(2, 0x10), (0xF, 1)]))) (fun t => (t.i, t.getV regF)) = some (0x110, 0) ∧
    see (start 0xF21E (withI 0xFFE (regs [(2, 3)]))) (fun t => (t.i, t.getV regF)) = some (0x001, 1) := by decide

/-- M4, M5: 0xFFF is no overflow, 0x1000 is; x = F is read before VF is written. -/
theorem test_add_i_edges :
    see (start 0xF21E (withI 0xF00 (regs [(2, 0xFF)]))) (fun t => (t.i, t.getV regF)) = some (0xFFF, 0) ∧
    see (start 0xFF1E (withI 0xFFF (regs [(0xF, 1)]))) (fun t => (t.i, t.getV regF)) = some (0x000, 1) := by decide

/-- M6, M7, M8. -/
theorem test_ld_f :
    see (start 0xF029 (regs [(0, 0x0A)])) (·.i) = some 0x082 ∧ see (start 0xF029 (regs [(0, 0x1A)])) (·.i) = some 0x082 ∧
    see (start 0xF029 (regs [(0, 0x0F)])) (·.i) = some 0x09B := by decide

/-- M9, M12, M14: the digits; up to the last byte of memory; up to the byte below the font. -/
theorem test_ld_b :
    see (start 0xF033 (withI 0x300 (regs [(0, 0xFF)]))) (bytesAt 0x300 3) = some [2, 5, 5] ∧
    see (start 0xF033 (withI 0xFFD (regs [(0, 42)]))) (bytesAt 0xFFD 3) = some [0, 4, 2] ∧
    see (start 0xF033 (withI 0x04D (regs [(0, 1)]))) (bytesAt 0x04D 3) = some [0, 0, 1] := by decide

/-- M11, M13. -/
theorem test_ld_b_faults :
    see (start 0xF033 (withI 0xFFE (regs [(0, 1)]))) (fun t => (t.status, bytesAt 0xFFE 2 t)) =
      some (faultOf .addressOutOfRange 0x200 (some 0xF033) (some 0x1000) false, [0, 0]) ∧
    see (start 0xF033 (withI 0x09E (regs [(0, 1)]))) (·.status) =
      some (faultOf .addressOutOfRange 0x200 (some 0xF033) (some 0x09E) true) := by decide

/-- M15, M18: V0..Vx are stored and I stays; just above the font no fault. -/
theorem test_ld_mem_vx :
    see (start 0xF155 (withI 0x300 (regs [(0, 1), (1, 2), (2, 3)]))) (fun t => (bytesAt 0x300 3 t, t.i)) =
      some ([1, 2, 0], 0x300) ∧
    see (start 0xF055 (withI 0x0A0 (regs [(0, 7)]))) (fun t => (bytesAt 0x0A0 1 t, t.status)) = some ([7], .running) :=
      by decide

/-- M17, M19. -/
theorem test_ld_mem_vx_faults :
    see (start 0xFF55 (withI 0xFF1 State.reset)) (·.status) =
      some (faultOf .addressOutOfRange 0x200 (some 0xFF55) (some 0x1000) false) ∧
    see (start 0xF355 (withI 0x04D (regs [(0, 1)]))) (fun t => (t.status, bytesAt 0x04D 3 t)) =
      some (faultOf .addressOutOfRange 0x200 (some 0xF355) (some 0x050) true, [0, 0, 0]) := by decide

/-- M20. -/
theorem test_ld_vx_mem :
    see (start 0xF265 (withI 0x300 (withMem 0x300 [1, 2, 3, 4] State.reset))) (fun t => (t.getV 0, t.getV 1, t.getV 2, t.getV 3, t.i)) =
      some (1, 2, 3, 0, 0x300) := by decide

/-- M23: nothing is loaded. -/
theorem test_ld_vx_mem_fault :
    see (start 0xF165 (withI 0xFFF (regs [(0, 7), (1, 8)]))) (fun t => (t.getV 0, t.getV 1, t.status)) =
      some (7, 8, faultOf .addressOutOfRange 0x200 (some 0xF165) (some 0x1000) false) := by decide

/-- DR1. -/
theorem test_cls :
    see (start 0x00E0 (withPixel 3 4 (regs [(0xF, 9)]))) (fun t => (pixel t.fb 3 4, t.getV regF, t.pc)) = some (false, 9, 0x202) :=
      by decide

/-- DR3, DR4: the origin is reduced, the sprite is clipped at the right edge. -/
theorem test_drw_modulo_and_clip :
    see (start 0xD121 (withI 0x300 (withMem 0x300 [0x81] (regs [(1, 70), (2, 33)]))))
        (fun t => (pixel t.fb 1 6, pixel t.fb 1 7, pixel t.fb 1 13, t.getV regF)) = some (true, false, true, 0) ∧
    see (start 0xD121 (withI 0x300 (withMem 0x300 [0xFF] (regs [(1, 60)]))))
        (fun t => (pixel t.fb 0 60, pixel t.fb 0 63, pixel t.fb 0 0, pixel t.fb 1 0)) = some (true, true, false, false) :=
      by decide

/-- DR6, DR8: a pixel turned off sets VF; VF as coordinate is read before it is written. -/
theorem test_drw_collision :
    see (start 0xD121 (withI 0x300 (withMem 0x300 [0xC0] (withPixel 0 1 State.reset))))
        (fun t => (pixel t.fb 0 0, pixel t.fb 0 1, t.getV regF)) = some (true, false, 1) ∧
    see (start 0xDF01 (withI 0x300 (withMem 0x300 [0x80] (regs [(0xF, 2), (0, 3)]))))
        (fun t => (pixel t.fb 3 2, t.getV regF)) = some (true, 0) := by decide

/-- T1. -/
theorem test_ld_vx_dt :
    see (start 0xF507 { State.reset with dt := 0x2A }) (fun t => (t.getV 5, t.pc)) = some (0x2A, 0x202) := by decide

/-- T2, T4. -/
theorem test_ld_dt_vx :
    see (start 0xF515 (regs [(5, 0x30)])) (·.dt) = some 48 ∧ see (start 0xFF15 { State.reset with dt := 5 }) (·.dt) = some 0 :=
      by decide

/-- T3: the step, and the tick after it. -/
theorem test_ld_st_vx :
    see (start 0xF518 (regs [(5, 1)])) (fun t => (t.st, t.soundOn)) = some (1, true) ∧
    see (withNext .tick { State.reset with st := 1 }) (fun t => (t.st, t.soundOn)) = some (0, false) := by decide

/-- T6, T7, T10. -/
theorem test_skp :
    see (start 0xE59E { regs [(5, 5)] with keys := 0x20 }) (·.pc) = some 0x204 ∧
    see (start 0xE59E { regs [(5, 5)] with keys := 0x10 }) (·.pc) = some 0x202 ∧
    see (start 0xE59E { regs [(5, 0x15)] with keys := 0x20 }) (·.pc) = some 0x204 := by decide

/-- T8, T9. -/
theorem test_sknp :
    see (start 0xE5A1 { regs [(5, 5)] with keys := 0x20 }) (·.pc) = some 0x202 ∧
    see (start 0xE5A1 (regs [(5, 5)])) (·.pc) = some 0x204 := by decide

/-- T12. -/
theorem test_ld_vx_k_enters :
    see (start 0xF30A) (fun t => (t.status, t.pc, Transaction.step.reply t)) = some (.waiting 3 0, 0x200, .waiting) :=
      by decide

/-- T13, T14, T15, T16: no press; the lowest new key; a held key is not new. -/
theorem test_ld_vx_k_polls :
    see (start 0xF30A |> fun s => { s with status := .waiting 3 0 }) (fun t => (t.status, t.pc)) = some (.waiting 3 0, 0x200) ∧
    see (start 0xF30A |> fun s => { s with status := .waiting 3 0, keys := 0x204 })
        (fun t => (t.getV 3, t.pc, t.status)) = some (2, 0x202, .running) ∧
    see (start 0xF30A |> fun s => { s with status := .waiting 3 0x80, keys := 0 }) (·.status) = some (.waiting 3 0) ∧
    see (start 0xF30A |> fun s => { s with status := .waiting 3 0x80, keys := 0x82 }) (·.getV 3) = some 1 := by decide

/-! ### The step, faults, timers and the host -/

/-- ST1, ST2, ST3. -/
theorem test_fetch_faults :
    see (withNext .step (withPc 0xFFF State.reset)) (·.status) = some (faultOf .addressOutOfRange 0xFFF none (some 0x1000) false) ∧
    see (withNext .step (withPc 0x1000 State.reset)) (·.status) = some (faultOf .addressOutOfRange 0x1000 none (some 0x1000) false) ∧
    see (withNext .step (withPc 0x10FE State.reset)) (·.status) = some (faultOf .addressOutOfRange 0x10FE none (some 0x10FE) false) :=
      by decide

/-- ST7: an odd PC is no fault; ST5. -/
theorem test_odd_pc_and_illegal :
    see (start 0x6012 (withPc 0x201 State.reset)) (fun t => (t.getV 0, t.pc)) = some (0x12, 0x203) ∧
    see (start 0x0123) (fun t => (t.status, t.pc)) = some (faultOf .invalidOpcode 0x200 (some 0x0123) none false, 0x200) :=
      by decide

/-- T5, S8: 10 goes to 9, 1 to 0, 0 stays. -/
theorem test_tick_holds_at_zero :
    see (withNext .tick { State.reset with st := 3 }) (fun t => (t.dt, t.st)) = some (0, 2) ∧
    see (withNext .tick { State.reset with dt := 10, st := 1 }) (fun t => (t.dt, t.st)) = some (9, 0) := by decide

/-- R121: a ROM's first bytes at 0x200, and PC there. -/
theorem test_init_places_the_rom :
    see (withNext (.init [0x60, 0x05]) (regs [(3, 9)])) (fun t => (bytesAt 0x200 3 t, t.pc, t.getV 3)) =
      some ([0x60, 0x05, 0], 0x200, 0) := by decide

/-- R8, P5's last line: with another STACK_DEPTH, here 1, the second call is the one that faults. -/
theorem test_stack_depth_is_an_argument :
    see (start 0x2300 { State.reset with params := { hardwareParams with stackDepth := 1 } }) (·.stack) = some [0x202] ∧
    see (start 0x2300 { withStack 1 0x202 State.reset with params := { hardwareParams with stackDepth := 1 } })
      (·.status) = some (faultOf .stackOverflow 0x200 (some 0x2300) none false) := by decide

/-- R8, R121: `init` places whatever FONT is, here 80 bytes 0xAA, and nothing of it outside 0x050-0x09F. -/
theorem test_font_is_an_argument :
    see (withNext (.init []) { State.reset with params := { hardwareParams with font := Vector.replicate 80 0xAA } })
      (fun t => (bytesAt 0x04F 2 t, bytesAt 0x09F 2 t)) = some ([0, 0xAA], [0xAA, 0]) := by decide

/-- R115: a known transaction comes first, and past the known ones each is the next of the free order, without end. -/
theorem test_order_is_free :
    State.reset.nextTransaction = Config.transactionAt 0 ∧
    State.reset.takeTransaction.nextTransaction = Config.transactionAt 1 ∧
    (withNext .tick State.reset).nextTransaction = .tick ∧
    (withNext .tick State.reset).takeTransaction.nextTransaction = Config.transactionAt 0 := ⟨rfl, rfl, rfl, rfl⟩

/-- R28: the packed fields of ST5's fault, computed by hand: kind 1 at bit 22, PC at 25, word at 41, valid at 57. -/
theorem test_status_register :
    Status.toBits (faultOf .invalidOpcode 0x200 (some 0x0123) none false) =
      BitVec.ofNat 75 (2 + 1 * 2 ^ 22 + 0x200 * 2 ^ 25 + 0x0123 * 2 ^ 41 + 2 ^ 57) := by decide

/-- The word placed by the table's numbering is the one the next step runs. -/
theorem test_table_word_runs :
    see (State.reset.withFetchWord 16 0x6A42) (fun t => (t.getV 0xA, t.pc)) = some (0x42, 0x202) := by decide

/-! ### Witnesses: for every statement with hypotheses, a state and operands that meet them, at the edges of each clause -/

/-- The core runs `i` next: how `State.runs` is shown for a closed state. -/
theorem runs_of {s : State} {i : Instr}
    (h : s.nextTransaction = .step ∧ s.status = .running ∧ s.fetchInside = true ∧ decode s.fetchWord = .ok i) : s.runs i :=
  ⟨h.1, h.2.1, of_decide_eq_true h.2.2.1, h.2.2.2⟩

/-- A state that a later step reaches: an Fx0A at PC waits, a caller's address is on the stack, and memory lists a byte. -/
def waitingState : State :=
  start 0xF30A (withStack 1 0x206 (withMem 0x300 [7] State.reset)) |> fun s => { s with status := .waiting 3 0x80 }

/-- The state right after a fault. -/
def faultedState : State := { withNext .step State.reset with status := faultOf .invalidOpcode 0x200 (some 0x0000) none false }

/-- The fault recorded there. -/
def someFault : FaultRecord := .mk .invalidOpcode 0x200 (some 0x0000) none false

theorem test_witness_IllegalWordsAreTheListed : isListedIllegal 0x5001 ∧ isListedIllegal 0xF034 ∧ ¬ isListedIllegal 0xF033 := by
  unfold isListedIllegal; decide

theorem test_witness_StepRunsTheDecodedInstruction : (start 0x6005).runs (.ldImm 0 5) := runs_of (by decide)

theorem test_witness_PlacedWordRunsNext : (0xD125 : Nat) < 0x10000 ∧ decodeTableWord 16 0xD125 = some (.drw 1 2 5) :=
      by decide

theorem test_witness_FetchRangeFault_outside :
    (withNext .step (withPc 0xFFF State.reset)).nextTransaction = .step ∧ (withPc 0xFFF State.reset).status = .running ∧
    0xFFE < (withPc 0xFFF State.reset).pc.toNat ∧ 0xFFE < (withPc 0x1000 State.reset).pc.toNat := by decide

theorem test_witness_FetchRangeFault_inside :
    (start 0x5001 (withPc 0xFFE State.reset)).pc.toNat ≤ 0xFFE ∧
    see (start 0x5001 (withPc 0xFFE State.reset)) (·.status) =
      some (faultOf .invalidOpcode 0xFFE (some 0x5001) none false) := by decide

theorem test_witness_IllegalWordFault :
    (start 0x5001).nextTransaction = .step ∧ (start 0x5001).status = .running ∧ (start 0x5001).pc.toNat ≤ 0xFFE ∧
    decode (start 0x5001).fetchWord = .error (.invalidOpcode 0x5001) := by decide

theorem test_witness_FaultsArePrecise :
    (start 0x00EE).nextTransaction = .step ∧ (start 0x00EE).status.isFaulted = false ∧
    see (start 0x00EE) (·.status) = some (faultOf .stackUnderflow 0x200 (some 0x00EE) none false) ∧
    see (withNext .step (withPc 0xFFF State.reset)) (·.status) = some (faultOf .addressOutOfRange 0xFFF none (some 0x1000) false) :=
      by decide

/-- One state for each of the six causes, in the statement's order. -/
theorem test_witness_FaultsHaveOnlyTheirCauses :
    see (withNext .step (withPc 0x10FE State.reset)) (·.status) = some (faultOf .addressOutOfRange 0x10FE none (some 0x10FE) false) ∧
    see (start 0xE19F) (·.status) = some (faultOf .invalidOpcode 0x200 (some 0xE19F) none false) ∧
    see (start 0x2300 (withStack 16 0x202 State.reset)) (·.status) =
      some (faultOf .stackOverflow 0x200 (some 0x2300) none false) ∧
    see (start 0x00EE) (·.status) = some (faultOf .stackUnderflow 0x200 (some 0x00EE) none false) ∧
    see (start 0xD122 (withI 0xFFF State.reset)) (·.status) =
      some (faultOf .addressOutOfRange 0x200 (some 0xD122) (some 0x1000) false) ∧
    see (start 0xF055 (withI 0x09F State.reset)) (·.status) =
      some (faultOf .addressOutOfRange 0x200 (some 0xF055) (some 0x09F) true) := by decide

theorem test_witness_FaultedCoreStaysFaulted :
    faultedState.status = .faulted someFault ∧ faultedState.nextTransaction = .step ∧
    (withNext .tick faultedState).nextTransaction = .tick ∧ (withNext .tick faultedState).status = .faulted someFault ∧
    (withNext (.setKeys 3) faultedState).nextTransaction = .setKeys 3 ∧
    (withNext (.setKeys 3) faultedState).status = .faulted someFault := by decide

/-- Nothing written in `waitingState` lies in the font. -/
theorem waitingState_font (k : Nat) (h : k < Config.fontSize) :
    waitingState.readByte (Config.fontBase + k) = fontByte hardwareFont k := by
  have h' : k < 80 := h
  have hm : waitingState.mem = Memory.writeBytes hardwareFont (Memory.writeBytes hardwareFont [] 0x300 [7]) 0x200
    (bytesOfWord 0xF30A) := rfl
  have ho : ∀ (m : Memory) (a : Nat) (bs : List Byte), 0x0A0 ≤ a → Memory.read hardwareFont
      (Memory.writeBytes hardwareFont m a bs) (Config.fontBase + k) = Memory.read hardwareFont m (Config.fontBase + k) :=
    fun m a bs ha => Memory.read_writeBytes_of_outside (by simp only [Config.fontBase]; omega)
  have hf : inFont (Config.fontBase + k) = true := (inFont_iff _).2 (by simp only [Config.fontBase]; omega)
  show Memory.read hardwareFont waitingState.mem _ = _
  rw [hm, ho _ _ _ (by decide), ho _ _ _ (by decide), Memory.read_nil, initialByte, if_pos hf, Nat.add_sub_cancel_left]

theorem test_witness_EveryStepKeepsTheInvariant :
    waitingState.Inv ∧ step waitingState = .next { waitingState with status := .waiting 3 0, schedule := [] } :=
  ⟨⟨by decide, by decide, fun a h => by rw [List.mem_singleton.1 (show a ∈ [(0x206 : Word)] from h)]; decide,
    waitingState_font, by decide, by intro wx b h; cases h; decide, by decide⟩, rfl⟩

theorem test_witness_InitLoadsTheRom :
    (withNext (.init (List.replicate 3584 0x12)) State.reset).nextTransaction = .init (List.replicate 3584 0x12) ∧
    (List.replicate 3584 (0x12 : Byte)).length ≤ 3584 ∧
    (withNext (.init (List.replicate 3585 0x12)) State.reset).nextTransaction = .init (List.replicate 3585 0x12) ∧
    3584 < (List.replicate 3585 (0x12 : Byte)).length := ⟨rfl, by rw [List.length_replicate], rfl, by rw [List.length_replicate]; omega⟩

theorem test_witness_NormalEndIsAFixedPoint :
    (start 0x1200).endedNormally ∧ (start 0x1200).nextTransaction = .step := by unfold State.endedNormally; decide

theorem test_witness_ReturnPopsIntoPc :
    (withStack 1 0x206 State.reset).stack = 0x206 :: [] ∧ State.reset.stack = [] := by decide

theorem test_witness_CallPushesTheNextAddress :
    State.reset.stack.length < State.reset.params.stackDepth ∧
    (withStack 15 0x202 State.reset).stack.length < (withStack 15 0x202 State.reset).params.stackDepth ∧
    (withStack 16 0x202 State.reset).stack.length = (withStack 16 0x202 State.reset).params.stackDepth := by decide

theorem test_witness_CallThenReturn :
    (withStack 15 0x202 State.reset).stack.length < (withStack 15 0x202 State.reset).params.stackDepth := by decide

/-- A non-zero low nibble of 5xy0 and 9xy0. -/
theorem test_witness_RegisterSkips :
    (1 : Nibble) ≠ 0 ∧ encode (.seReg 1 2) ||| (1 : Nibble).setWidth 16 = 0x5121 ∧
    encode (.sneReg 1 2) ||| (1 : Nibble).setWidth 16 = 0x9121 := by decide

/-- The flag statements' `x ≠ regF`: x = 0 and x = 14. -/
theorem test_witness_AddSetsCarry : (0 : Reg) ≠ regF ∧ (14 : Reg) ≠ regF := by decide
theorem test_witness_SubtractionsSetNoBorrow : (0 : Reg) ≠ regF ∧ (14 : Reg) ≠ regF := by decide
theorem test_witness_ShiftsFromVy : (0 : Reg) ≠ regF ∧ (14 : Reg) ≠ regF := by decide

theorem test_witness_StraightLineAdvance :
    instrSetsNext (.addImm 1 2) = false ∧ State.reset.status = .running ∧
    exec (.addImm 1 2) State.reset = .next (State.reset.setV 1 2).advance ∧
    (State.reset.setV 1 2).advance.status = .running := ⟨rfl, rfl, rfl, rfl⟩

/-- Three bytes at 0xFFD, at 0x04D and at 0x0A0 lie inside memory and miss the font. -/
theorem test_witness_StoreDecimalDigits_stores :
    (withI 0xFFD State.reset).insideMemory 3 ∧ ¬ (withI 0xFFD State.reset).meetsFont 3 ∧
    (withI 0x04D State.reset).insideMemory 3 ∧ ¬ (withI 0x04D State.reset).meetsFont 3 ∧
    (withI 0x0A0 State.reset).insideMemory 3 ∧ ¬ (withI 0x0A0 State.reset).meetsFont 3 := by
  unfold State.insideMemory State.meetsFont; decide

/-- Three bytes at 0xFFE leave memory; at 0x04E and at 0x09F they meet the font. -/
theorem test_witness_StoreDecimalDigits_faults :
    ¬ (withI 0xFFE State.reset).insideMemory 3 ∧
    (withI 0x04E State.reset).insideMemory 3 ∧ (withI 0x04E State.reset).meetsFont 3 ∧
    (withI 0x09F State.reset).insideMemory 3 ∧ (withI 0x09F State.reset).meetsFont 3 := by
  unfold State.insideMemory State.meetsFont; decide

/-- x = 15 at 0xFF0 and x = 0 at 0x04F store; x = 15 at 0xFF1 leaves memory; x = 0 at 0x050 and at 0x09F meets the font. -/
theorem test_witness_StoreRegisters :
    (withI 0xFF0 State.reset).insideMemory ((15 : Reg).toNat + 1) ∧ ¬ (withI 0xFF0 State.reset).meetsFont ((15 : Reg).toNat + 1) ∧
    (withI 0x04F State.reset).insideMemory ((0 : Reg).toNat + 1) ∧ ¬ (withI 0x04F State.reset).meetsFont ((0 : Reg).toNat + 1) ∧
    ¬ (withI 0xFF1 State.reset).insideMemory ((15 : Reg).toNat + 1) ∧
    (withI 0x050 State.reset).insideMemory ((0 : Reg).toNat + 1) ∧ (withI 0x050 State.reset).meetsFont ((0 : Reg).toNat + 1) ∧
    (withI 0x09F State.reset).insideMemory ((0 : Reg).toNat + 1) ∧ (withI 0x09F State.reset).meetsFont ((0 : Reg).toNat + 1) := by
  unfold State.insideMemory State.meetsFont; decide

theorem test_witness_LoadRegisters :
    (withI 0xFF0 State.reset).insideMemory ((15 : Reg).toNat + 1) ∧
    ¬ (withI 0xFF1 State.reset).insideMemory ((15 : Reg).toNat + 1) := by unfold State.insideMemory; decide

/-- The whole of the statement's hypotheses for Fx33 at 0x04E, whose lowest font byte is 0x050. -/
theorem test_witness_FontStoreFault :
    instrIsStore (.ldB 0) = true ∧ instrAccessLength (.ldB 0) = some 3 ∧ (withI 0x04E State.reset).insideMemory 3 ∧
    (withI 0x04E State.reset).i.toNat ≤ 0x050 ∧ 0x050 < (withI 0x04E State.reset).i.toNat + 3 ∧
    ∀ b, (withI 0x04E State.reset).i.toNat ≤ b → b < 0x050 → ¬ (0x050 ≤ b ∧ b ≤ 0x09F) := by
  refine ⟨rfl, rfl, ?_, by decide, by decide, fun b _ h => by omega⟩
  unfold State.insideMemory; decide

theorem test_witness_AccessRangeFault :
    instrAccessLength (.drw 1 2 2) = some 2 ∧ 0xFFF < (withI 0xFFF State.reset).i.toNat + 2 - 1 ∧
    instrAccessLength (.drw 1 2 0) = some 0 := by decide

/-- A store step changes the byte at I. -/
theorem test_witness_OnlyStoresWriteMemory :
    see (start 0xF055 (withI 0x300 (regs [(0, 7)]))) (·.readByte 0x300) = some 7 ∧
    (start 0xF055 (withI 0x300 (regs [(0, 7)]))).readByte 0x300 = 0 := by decide

/-- x = 1, k = 0 at 0xFFE, and a later state whose PC is there. -/
theorem test_witness_StoredWordIsFetched :
    (0 : Reg).toNat < (1 : Reg).toNat ∧ (withI 0xFFE State.reset).insideMemory ((1 : Reg).toNat + 1) ∧
    ¬ (withI 0xFFE State.reset).meetsFont ((1 : Reg).toNat + 1) ∧
    (withPc 0xFFE State.reset).pc.toNat = (withI 0xFFE State.reset).i.toNat + (0 : Reg).toNat := by
  unfold State.insideMemory State.meetsFont; decide

/-- n = 0 with I at the top of memory, n = 15 up to the last byte; n = 15 one byte further. -/
theorem test_witness_DrawSprite :
    ((0 : Nibble) = 0 ∨ (withI 0xFFF State.reset).insideMemory (0 : Nibble).toNat) ∧
    ((15 : Nibble) = 0 ∨ (withI 0xFF1 State.reset).insideMemory (15 : Nibble).toNat) ∧
    ((15 : Nibble) ≠ 0 ∧ ¬ (withI 0xFF2 State.reset).insideMemory (15 : Nibble).toNat) := by
  unfold State.insideMemory; decide

/-- DR6's state: drawing turns the pixel (0, 1) off; and DR1's has no pixel to turn off. -/
theorem test_witness_DrawSprite_collides :
    pixel (withPixel 0 1 State.reset).fb 0 1 = true ∧
    (∀ r c, pixel State.reset.fb r c = false) := ⟨by decide, pixel_clearFramebuffer⟩

theorem test_witness_DoubleDrawRestores :
    (1 : Reg) ≠ regF ∧ (2 : Reg) ≠ regF ∧ ((5 : Nibble) = 0 ∨ (withI 0x050 State.reset).insideMemory (5 : Nibble).toNat) ∧
    ∀ r c, r < 32 → c < 64 → spriteBit ((withI 0x050 State.reset).readBytes 0x050 5)
      (((withI 0x050 State.reset).getV 2).toNat % 32) (((withI 0x050 State.reset).getV 1).toNat % 64) r c = true →
      pixel (withI 0x050 State.reset).fb r c = false :=
  ⟨by decide, by decide, by unfold State.insideMemory; decide, fun r c _ _ _ => pixel_clearFramebuffer r c⟩

/-- CLS with one pixel set changes the framebuffer. -/
theorem test_witness_OnlyClearAndDrawWriteFramebuffer :
    ∃ t, step (start 0x00E0 (withPixel 0 0 State.reset)) = .next t ∧ t.fb ≠ (start 0x00E0 (withPixel 0 0 State.reset)).fb := by
  refine ⟨_, rfl, fun h => ?_⟩
  have hp := congrArg (pixel · 0 0) h
  exact absurd hp (by decide)

theorem test_witness_TickCountsDown : (withNext .tick State.reset).nextTransaction = .tick := by decide

/-- Each of the three clauses' hypotheses: a step that changes DT, a tick that changes ST. -/
theorem test_witness_OnlyTimerWritersChangeTimers :
    see (start 0xF515 (regs [(5, 0x30)])) (·.dt) = some 0x30 ∧ (start 0xF515 (regs [(5, 0x30)])).dt = 0 ∧
    see (withNext .tick { State.reset with st := 1 }) (·.st) = some 0 ∧
    (withNext .tick { State.reset with st := 1 }).nextTransaction = .tick := by decide

/-- A press of key 0, a press of key 15 alone, and no press (key 7 still held), in the waiting state. -/
theorem test_witness_KeyWaitPolls :
    ({ waitingState with keys := 0x0001 }).nextTransaction = .step ∧
    ({ waitingState with keys := 0x0001 }).status = .waiting 3 0x80 ∧
    pressedSince ({ waitingState with keys := 0x0001 }).keys 0x0080 0 ∧
    ({ waitingState with keys := 0x8000 }).status = .waiting 3 0x80 ∧
    pressedSince ({ waitingState with keys := 0x8000 }).keys 0x0080 15 ∧
    (∀ j, j < 15 → ¬ pressedSince ({ waitingState with keys := 0x8000 }).keys 0x0080 j) ∧
    ({ waitingState with keys := 0x0080 }).status = .waiting 3 0x80 ∧
    (∀ k, k < 16 → ¬ pressedSince ({ waitingState with keys := 0x0080 }).keys 0x0080 k) := by
  unfold pressedSince; decide

theorem test_witness_OnlySetKeysWritesKeys :
    (withNext (.setKeys 0xFFFF) State.reset).nextTransaction = .setKeys 0xFFFF ∧
    see (withNext (.setKeys 0xFFFF) State.reset) (·.keys) = some 0xFFFF ∧ State.reset.keys = 0 := by decide

/-- Each of the three writers changes I. -/
theorem test_witness_OnlyIndexWritersChangeIndex :
    see (start 0xA300) (·.i) = some 0x300 ∧ see (start 0xF21E (regs [(2, 3)])) (·.i) = some 3 ∧
    see (start 0xF029) (·.i) = some 0x050 ∧ (start 0xA300).i = 0 := by decide

/-- A call, a return and an `init` change the stack. -/
theorem test_witness_OnlyCallAndReturnChangeStack :
    see (start 0x2300) (·.stack) = some [0x202] ∧ see (start 0x00EE (withStack 1 0x206 State.reset)) (·.stack) = some [] ∧
    see (withNext (.init []) (withStack 1 0x206 State.reset)) (·.stack) = some [] := by decide

end Sys2Proof.Tests
end

section
/-! PROOFS. The scope of the model (spec/00_scope.md): every transaction completes and keeps the parameters (R8, R106, R113,
R121), and the values right after reset (R30, R121, R122). -/

namespace Sys2Proof.Machine

/-! ### Every transaction completes -/

/-- No arm of `exec` stops the machine, since a fault of the spec is a next state (notes/assumptions/5.md); and none writes
the parameters. Only the six instructions that can fault have more than one outcome. -/
theorem exec_completes_keeping_params (i : Instr) (s : State) : ∃ t, exec i s = .next t ∧ t.params = s.params := by
  cases i with
  | ret => rcases execRet_cases s with ⟨-, h⟩ | ⟨_, _, -, h⟩ <;> exact ⟨_, h, rfl⟩
  | call nnn => rcases execCall_cases nnn s with ⟨-, h⟩ | ⟨-, h⟩ <;> exact ⟨_, h, rfl⟩
  | drw x y n => rcases execDrw_cases x y n s with ⟨-, h⟩ | ⟨-, h⟩ <;> exact ⟨_, h, rfl⟩
  | ldVxMem x => rcases execLdVxMem_cases x s with ⟨-, h⟩ | ⟨-, h⟩ <;> exact ⟨_, h, rfl⟩
  | ldB x => rcases execLdB_cases x s with ⟨-, h⟩ | ⟨-, _, -, h⟩ | ⟨-, -, h⟩ <;> exact ⟨_, h, rfl⟩
  | ldMemVx x => rcases execLdMemVx_cases x s with ⟨-, h⟩ | ⟨-, _, -, h⟩ | ⟨-, -, h⟩ <;> exact ⟨_, h, rfl⟩
  | _ => exact ⟨_, rfl, rfl⟩

@[simp] theorem keyWaitPoll_params (wx : Reg) (base : Word) (s : State) : (keyWaitPoll wx base s).params = s.params := by
  rcases keyWaitPoll_cases wx base s with ⟨_, -, h⟩ | ⟨-, h⟩ <;> simp [h]

/-- The Running branch of R59: a fetch fault, an illegal word, or the decoded instruction. -/
theorem runningStep_completes_keeping_params (s : State) : ∃ t, runningStep s = .next t ∧ t.params = s.params := by
  unfold runningStep
  split
  · split
    · exact exec_completes_keeping_params _ s
    · exact ⟨_, rfl, s.raiseInvalid_params _⟩
  · exact ⟨_, rfl, s.raiseFetch_params⟩

/-- The core's step completes in each STATUS (R59). -/
theorem stepTransaction_completes_keeping_params (s : State) :
    ∃ t, stepTransaction s = .next t ∧ t.params = s.params := by
  unfold stepTransaction
  split
  · exact ⟨s, rfl, rfl⟩
  · exact ⟨_, rfl, keyWaitPoll_params _ _ s⟩
  · exact runningStep_completes_keeping_params s

/-- `init` replaces the core's state; the parameters are not the core's (R123). -/
theorem State.init_params {s t : State} {rom : List Byte} (h : s.init rom = some t) : t.params = s.params := by
  unfold State.init at h
  split at h <;> cases h
  rfl

/-- Every transaction completes, a refused `init` too, which changes nothing (R121). -/
theorem transact_completes_keeping_params (tr : Transaction) (s : State) :
    ∃ t, transact tr s = .next t ∧ t.params = s.params := by
  cases tr with
  | step => exact stepTransaction_completes_keeping_params s
  | tick => exact ⟨_, rfl, s.tick_params⟩
  | setKeys k => exact ⟨_, rfl, s.setKeys_params k⟩
  | init rom =>
    refine ⟨_, rfl, ?_⟩
    cases h : s.init rom with
    | none => rfl
    | some t => exact State.init_params h

/-- Settles O13: the next transaction, whichever it is, completes, and neither taking it nor performing it writes the
parameters. -/
theorem everyStepCompletes : Obligations.EveryStepCompletes := by
  intro s
  obtain ⟨t, ht, hp⟩ := transact_completes_keeping_params s.nextTransaction s.takeTransaction
  exact ⟨t, ht, hp.trans s.takeTransaction_params⟩

/-! ### The values right after reset -/

/-- Every general register is zero after reset (R30). -/
@[simp] theorem State.reset_getV (r : Reg) : State.reset.getV r = 0 := by
  simp [State.getV, State.reset]

/-- What an address reads as before anything is written, with the font region in numerals (R30). -/
theorem initialByte_eq (font : Font) (a : Nat) :
    initialByte font a = if 0x050 ≤ a ∧ a ≤ 0x09F then fontByte font (a - 0x050) else 0 := by
  simp only [initialByte, inFont_iff, Config.fontBase]

/-- Reset's memory lists no cell, so every address reads as its initial byte. -/
theorem State.reset_readByte (a : Nat) : State.reset.readByte a = initialByte State.reset.params.font a :=
  Memory.read_nil a

/-- The reset state is what `init` of the empty ROM leaves of it (notes/assumptions/4.md). -/
theorem State.reset_init_nil : State.reset.init [] = some State.reset :=
  if_pos ((romFits_iff []).2 (Nat.zero_le _))

/-- Settles O16: registers, framebuffer, memory and `init` by the lemmas above, every other field by the definition of
reset. -/
theorem resetValues : Obligations.ResetValues :=
  ⟨State.reset_getV, rfl, rfl, rfl, rfl, rfl, rfl, pixel_clearFramebuffer, rfl, rfl,
    fun a => (State.reset_readByte a).trans (initialByte_eq _ a), State.reset_init_nil⟩

end Sys2Proof.Machine
end

section
/-! PROOFS. What each instruction and each transaction may write (R21, R23, R25, R32): the ground of every statement that
names the only writers of a piece of state. -/

namespace Sys2Proof.Machine

/-! ### What an update keeps

`t` is the state built so far from `s`. An update of `t` keeps every piece of state that it does not write; the registers
are no `Component`. -/

section
variable {c : Component} {s t : State}

@[simp] theorem Component.same_rfl : c.same s s := by
  cases c <;> simp [Component.same]

@[simp] theorem Component.same_setV (r : Reg) (b : Byte) : c.same s (t.setV r b) ↔ c.same s t := by
  cases c <;> simp [Component.same]

@[simp] theorem Component.same_setResultThenFlag (x : Reg) (r : Byte × Bool) :
    c.same s (t.setResultThenFlag x r) ↔ c.same s t := by
  cases c <;> simp [Component.same]

@[simp] theorem Component.same_loadRegs (bytes : List Byte) : c.same s (t.loadRegs bytes) ↔ c.same s t := by
  cases c <;> simp [Component.same]

@[simp] theorem Component.same_advance (hc : c ≠ .pc) : c.same s t.advance ↔ c.same s t := by
  cases c <;> simp_all [Component.same]

@[simp] theorem Component.same_skipIf (hc : c ≠ .pc) (b : Bool) : c.same s (t.skipIf b) ↔ c.same s t := by
  cases c <;> simp_all [Component.same]

@[simp] theorem Component.same_jump (hc : c ≠ .pc) (a : Word) : c.same s (t.jump a) ↔ c.same s t := by
  cases c <;> simp_all [Component.same]

@[simp] theorem Component.same_raise (hc : c ≠ .status) (k : Fault) (w a : Option Word) (p : Bool) :
    c.same s (t.raise k w a p) ↔ c.same s t := by
  cases c <;> simp_all [Component.same]

@[simp] theorem Component.same_raiseRange (hc : c ≠ .status) (w : Word) : c.same s (t.raiseRange w) ↔ c.same s t :=
  Component.same_raise hc ..

@[simp] theorem Component.same_raiseFont (hc : c ≠ .status) (w : Word) (a : Nat) :
    c.same s (t.raiseFont w a) ↔ c.same s t :=
  Component.same_raise hc ..

@[simp] theorem Component.same_raiseFetch (hc : c ≠ .status) : c.same s t.raiseFetch ↔ c.same s t :=
  Component.same_raise hc ..

@[simp] theorem Component.same_raiseInvalid (hc : c ≠ .status) (w : Word) :
    c.same s (t.raiseInvalid w) ↔ c.same s t :=
  Component.same_raise hc ..

@[simp] theorem Component.same_writeBytes (hc : c ≠ .mem) (a : Nat) (bytes : List Byte) :
    c.same s (t.writeBytes a bytes) ↔ c.same s t := by
  cases c <;> simp_all [Component.same]

@[simp] theorem Component.same_drawSprite (hc : c ≠ .fb) (x y : Reg) (bytes : List Byte) :
    c.same s (t.drawSprite x y bytes) ↔ c.same s t := by
  cases c <;> simp_all [Component.same]

@[simp] theorem Component.same_takeTransaction (hc : c ≠ .schedule) : c.same s t.takeTransaction ↔ c.same s t := by
  cases c <;> simp_all [Component.same]

/-- What is the same from here on is the same as before the transaction was taken. -/
@[simp] theorem Component.takeTransaction_same (hc : c ≠ .schedule) : c.same s.takeTransaction t ↔ c.same s t := by
  cases c <;> simp_all [Component.same]

@[simp] theorem Component.same_tick (hdt : c ≠ .dt) (hst : c ≠ .st) : c.same s t.tick ↔ c.same s t := by
  cases c <;> simp_all [Component.same]

@[simp] theorem Component.same_setKeys (hc : c ≠ .keys) (k : Word) : c.same s (t.setKeys k) ↔ c.same s t := by
  cases c <;> simp_all [Component.same]

/-! The updates that the instructions' meanings write out field by field. -/

@[simp] theorem Component.same_withIndex (hc : c ≠ .i) (a : Word) : c.same s { t with i := a } ↔ c.same s t := by
  cases c <;> simp_all [Component.same, State.readByte]

@[simp] theorem Component.same_withStack (hc : c ≠ .stack) (l : List Word) :
    c.same s { t with stack := l } ↔ c.same s t := by
  cases c <;> simp_all [Component.same, State.readByte]

@[simp] theorem Component.same_withDT (hc : c ≠ .dt) (b : Byte) : c.same s { t with dt := b } ↔ c.same s t := by
  cases c <;> simp_all [Component.same, State.readByte]

@[simp] theorem Component.same_withST (hc : c ≠ .st) (b : Byte) : c.same s { t with st := b } ↔ c.same s t := by
  cases c <;> simp_all [Component.same, State.readByte]

@[simp] theorem Component.same_withFb (hc : c ≠ .fb) (f : Framebuffer) : c.same s { t with fb := f } ↔ c.same s t := by
  cases c <;> simp_all [Component.same, State.readByte]

@[simp] theorem Component.same_withStatus (hc : c ≠ .status) (st : Status) :
    c.same s { t with status := st } ↔ c.same s t := by
  cases c <;> simp_all [Component.same, State.readByte]

@[simp] theorem Component.same_withDraws (hc : c ≠ .draws) (n : Nat) : c.same s { t with draws := n } ↔ c.same s t := by
  cases c <;> simp_all [Component.same, State.readByte]

end

/-! ### What an instruction may write -/

/-- The pieces of state, registers aside, that an instruction may write: STATUS when it can fault or wait, PC unless it
waits, and what its own rule names (R63-R103). -/
def instrWrites : Instr → List Component
  | .cls => [.fb, .pc]
  | .ret => [.stack, .pc, .status]
  | .call _ => [.stack, .pc, .status]
  | .ldI _ => [.i, .pc]
  | .rnd _ _ => [.draws, .pc]
  | .drw _ _ _ => [.fb, .pc, .status]
  | .ldVxK _ => [.status]
  | .ldDTVx _ => [.dt, .pc]
  | .ldSTVx _ => [.st, .pc]
  | .addI _ => [.i, .pc]
  | .ldF _ => [.i, .pc]
  | .ldB _ => [.mem, .pc, .status]
  | .ldMemVx _ => [.mem, .pc, .status]
  | .ldVxMem _ => [.pc, .status]
  | _ => [.pc]

/-- An instruction keeps every piece of state outside `instrWrites`: each of its outcomes is a chain of updates that write
only what that list names. -/
theorem exec_keeps {i : Instr} {c : Component} {s t : State} (h : exec i s = .next t) (hc : c ∉ instrWrites i) :
    c.same s t := by
  cases i with
  | ret => rcases execRet_cases s with ⟨-, h'⟩ | ⟨_, _, -, h'⟩ <;> cases next_inj h h' <;> simp_all [instrWrites]
  | call nnn => rcases execCall_cases nnn s with ⟨-, h'⟩ | ⟨-, h'⟩ <;> cases next_inj h h' <;> simp_all [instrWrites]
  | drw x y n => rcases execDrw_cases x y n s with ⟨-, h'⟩ | ⟨-, h'⟩ <;> cases next_inj h h' <;> simp_all [instrWrites]
  | ldVxMem x => rcases execLdVxMem_cases x s with ⟨-, h'⟩ | ⟨-, h'⟩ <;> cases next_inj h h' <;> simp_all [instrWrites]
  | ldB x =>
    rcases execLdB_cases x s with ⟨-, h'⟩ | ⟨-, _, -, h'⟩ | ⟨-, -, h'⟩ <;> cases next_inj h h' <;> simp_all [instrWrites]
  | ldMemVx x =>
    rcases execLdMemVx_cases x s with ⟨-, h'⟩ | ⟨-, _, -, h'⟩ | ⟨-, -, h'⟩ <;> cases next_inj h h' <;>
      simp_all [instrWrites]
  | rnd x nn => cases h; simp_all [instrWrites, rndWith]
  | _ => cases h; simp_all [instrWrites]

/-- A poll of the keypad writes a register, PC and STATUS at most (R104). -/
theorem keyWaitPoll_keeps {c : Component} (hpc : c ≠ .pc) (hstatus : c ≠ .status) (wx : Reg) (base : Word) (s : State) :
    c.same s (keyWaitPoll wx base s) := by
  rcases keyWaitPoll_cases wx base s with ⟨k, -, h⟩ | ⟨-, h⟩ <;> rw [h]
  · rw [Component.same_advance hpc, Component.same_withStatus hstatus, Component.same_setV]
    exact Component.same_rfl
  · exact (Component.same_withStatus hstatus _).2 Component.same_rfl

/-! ### What a step may write -/

/-- A step is its transaction, on the state with that transaction taken off the order (R32). -/
theorem step_of_next {s : State} {tr : Transaction} (hn : s.nextTransaction = tr) :
    step s = transact tr s.takeTransaction := by
  rw [step, hn]

/-- When the core's step changes a piece of state that is neither PC nor STATUS, it executed an instruction that may write
that piece: every other outcome of R59 keeps it. -/
theorem stepTransaction_writer {s t : State} {c : Component} (h : stepTransaction s = .next t) (hne : ¬ c.same s t)
    (hpc : c ≠ .pc) (hstatus : c ≠ .status) :
    s.status = .running ∧ s.fetchInside = true ∧
      ∃ i, decode s.fetchWord = .ok i ∧ exec i s = .next t ∧ c ∈ instrWrites i := by
  rcases stepTransaction_cases h with
    ⟨_, -, rfl⟩ | ⟨wx, b, -, rfl⟩ | ⟨-, -, rfl⟩ | ⟨-, -, -, rfl⟩ | ⟨hs, hf, i, hd, he⟩
  · exact absurd Component.same_rfl hne
  · exact absurd (keyWaitPoll_keeps hpc hstatus wx b s) hne
  · exact absurd (by simp [hstatus]) hne
  · exact absurd (by simp [hstatus]) hne
  · exact ⟨hs, hf, i, hd, he, not_imp_comm.1 (exec_keeps he) hne⟩

/-- The writers of a piece of state, said once for all of them: when a step changes one that is neither PC nor STATUS nor the
order of transactions, the core ran an instruction that may write it, or it was a tick and the piece a timer, or a key
update and the piece the keys, or an accepted `init`. -/
theorem step_writer {s t : State} {c : Component} (h : step s = .next t) (hne : ¬ c.same s t)
    (hc : c ∉ [.pc, .status, .schedule]) :
    (∃ i, s.runs i ∧ exec i s.takeTransaction = .next t ∧ c ∈ instrWrites i) ∨
    (s.nextTransaction = .tick ∧ c ∈ [.dt, .st]) ∨
    (∃ k, s.nextTransaction = .setKeys k ∧ c = .keys) ∨
    (∃ rom, s.nextTransaction = .init rom ∧ s.takeTransaction.init rom = some t) := by
  obtain ⟨hpc, hstatus, hsched⟩ : c ≠ .pc ∧ c ≠ .status ∧ c ≠ .schedule := by simpa using hc
  rw [← Component.takeTransaction_same hsched] at hne
  rcases step_cases h with ⟨hn, h'⟩ | ⟨hn, rfl⟩ | ⟨k, hn, rfl⟩ | ⟨rom, hn, -, hi⟩ | ⟨rom, -, -, rfl⟩
  · obtain ⟨hs, hf, i, hd, he, hw⟩ := stepTransaction_writer h' hne hpc hstatus
    exact .inl ⟨i, ⟨hn, hs, (State.fetchInside_iff _).1 hf, hd⟩, he, hw⟩
  · refine .inr (.inl ⟨hn, ?_⟩)
    by_contra hw
    exact hne (by simp_all)
  · refine .inr (.inr (.inl ⟨k, hn, ?_⟩))
    by_contra hw
    exact hne (by simp [hw])
  · exact .inr (.inr (.inr ⟨rom, hn, hi⟩))
  · exact absurd Component.same_rfl hne

end Sys2Proof.Machine
end

section
/-! PROOFS. The state of the core (spec/10_state.md): what `init` leaves (R30, R121) and the invariant right after reset (R126),
the only writers of the keys, I and the call stack (R21, R23, R25, R32), the STATUS register (R28) and the outputs (R33). -/

namespace Sys2Proof.Machine

/-! ### `init` and reset -/

/-- Before anything is written, the font region reads as FONT (R30). -/
theorem initialByte_font (font : Font) {k : Nat} (hk : k < 80) : initialByte font (0x050 + k) = fontByte font k := by
  rw [initialByte_eq, if_pos (by omega), Nat.add_sub_cancel_left]

/-- `init` accepts a ROM that fits (R121). -/
theorem State.init_of_fits (s : State) {rom : List Byte} (h : romFits rom = true) : ∃ t, s.init rom = some t :=
  ⟨_, if_pos h⟩

/-- An accepted `init` leaves the reset state with the ROM written, and the model's own fields as they were (R121). -/
theorem State.init_eq_some {s t : State} {rom : List Byte} (h : s.init rom = some t) :
    t = { State.reset with
      mem := Memory.writeBytes s.params.font [] Config.programBase rom
      draws := s.draws
      schedule := s.schedule
      turn := s.turn
      params := s.params } := by
  unfold State.init at h
  split at h <;> cases h
  rfl

/-- After an accepted `init` memory reads as the ROM from 0x200 on, and as before anything was written elsewhere (R30,
R121). -/
theorem State.readByte_init {s t : State} {rom : List Byte} (h : s.init rom = some t) (a : Nat) :
    t.readByte a =
      if 0x200 ≤ a ∧ a < 0x200 + rom.length then rom.getD (a - 0x200) 0 else initialByte s.params.font a := by
  rw [State.init_eq_some h]
  exact Memory.read_writeBytes rom [] 0x200 a

/-- An `init` transaction is `init`, or, when the ROM is refused, no change but the order of transactions (R121,
notes/assumptions/7.md). -/
theorem step_init {s : State} {rom : List Byte} (hn : s.nextTransaction = .init rom) :
    step s = .next ((s.takeTransaction.init rom).getD s.takeTransaction) :=
  step_of_next hn

/-- Settles O17: the length decides whether `init` is accepted; what it then leaves is the reset state, and each byte is
read off the one lemma about memory after `init`. -/
theorem initLoadsTheRom : Obligations.InitLoadsTheRom := by
  intro s rom hn
  constructor
  · intro hlen
    have hfit := (romFits_iff rom).2 hlen
    obtain ⟨t, ht⟩ := s.takeTransaction.init_of_fits hfit
    have hread := State.readByte_init ht
    refine ⟨t, by rw [step_init hn, ht]; rfl, if_pos hfit, ?_⟩
    obtain rfl := State.init_eq_some ht
    refine ⟨State.reset_getV, rfl, rfl, rfl, rfl, rfl, rfl, pixel_clearFramebuffer, rfl,
      fun k hk => ?font, fun k hk => ?rom, fun a _ hfont hrom => ?zero⟩
    case font => rw [hread, if_neg (by omega)]; exact initialByte_font _ hk
    case rom => rw [hread, if_pos (by omega), Nat.add_sub_cancel_left, List.getD_eq_getElem _ _ hk]
    case zero => rw [hread, if_neg hrom, initialByte_eq, if_neg hfont]
  · intro hlen
    have hfit : ¬ romFits rom = true := by rw [romFits_iff]; omega
    have hnone : s.takeTransaction.init rom = none := if_neg hfit
    exact ⟨by rw [step_init hn, hnone]; rfl, if_neg hfit⟩

/-- Settles O15: nothing has been written, so the font region reads as FONT; STATUS is Running, so nothing waits. -/
theorem resetMeetsTheInvariant : Obligations.ResetMeetsTheInvariant where
  index_inside := by decide
  stack_fits := Nat.zero_le _
  returns_inside _ h := absurd h List.not_mem_nil
  font_intact _ hk := (State.reset_readByte _).trans (initialByte_font _ hk)
  pc_bounded := by decide
  waits_at_key_wait _ _ h := nomatch h
  mem_wf := State.reset_mem_wf

/-! ### The only writers of the keys, I and the call stack -/

/-- Settles O56: no instruction may write the keys, so by `step_writer` only `set_keys` and `init` are left. -/
theorem onlySetKeysWritesKeys : Obligations.OnlySetKeysWritesKeys := by
  constructor
  · intro s k hn
    exact ⟨s.takeTransaction.setKeys k, step_of_next hn, rfl, fun _ _ => rfl, fun c hc => by simp_all⟩
  · intro s t h hne
    rcases step_writer (c := .keys) h hne (by decide) with ⟨i, -, -, hw⟩ | ⟨-, hw⟩ | ⟨k, hn, -⟩ | ⟨rom, hn, -⟩
    · cases i <;> simp [instrWrites] at hw
    · simp at hw
    · exact .inr ⟨k, hn⟩
    · exact .inl ⟨rom, hn⟩

/-- Settles O57: the three instructions that may write I are those of R21. -/
theorem onlyIndexWritersChangeIndex : Obligations.OnlyIndexWritersChangeIndex := by
  intro s t h hne
  rcases step_writer (c := .i) h hne (by decide) with ⟨i, hr, -, hw⟩ | ⟨-, hw⟩ | ⟨_, -, hw⟩ | ⟨rom, hn, -⟩
  · cases i with
    | ldI nnn => exact .inr (.inl ⟨nnn, hr⟩)
    | addI x => exact .inr (.inr (.inl ⟨x, hr⟩))
    | ldF x => exact .inr (.inr (.inr ⟨x, hr⟩))
    | _ => simp [instrWrites] at hw
  · simp at hw
  · cases hw
  · exact .inl ⟨rom, hn⟩

/-- Settles O58: 2nnn and 00EE alone may write the stack, and when they fault they keep it. -/
theorem onlyCallAndReturnChangeStack : Obligations.OnlyCallAndReturnChangeStack := by
  intro s t h hne
  rcases step_writer (c := .stack) h hne (by decide) with ⟨i, hr, he, hw⟩ | ⟨-, hw⟩ | ⟨_, -, hw⟩ | ⟨rom, hn, hi⟩
  · cases i with
    | call nnn =>
      rcases execCall_cases nnn s.takeTransaction with ⟨-, h'⟩ | ⟨-, h'⟩ <;> cases next_inj he h'
      · exact absurd rfl hne
      · exact .inr (.inl ⟨nnn, hr, rfl⟩)
    | ret =>
      rcases execRet_cases s.takeTransaction with ⟨-, h'⟩ | ⟨a, rest, hs, h'⟩ <;> cases next_inj he h'
      · exact absurd rfl hne
      · exact .inr (.inr ⟨hr, a, hs⟩)
    | _ => simp [instrWrites] at hw
  · simp at hw
  · cases hw
  · exact .inl ⟨rom, hn, by rw [State.init_eq_some hi]; rfl⟩

/-! ### STATUS as a register, and the outputs

Every field is read back from the packed register bit by bit; the fields do not overlap. -/

section
variable (f : StatusFields)

/-- A bit of the packed register is the bit of the field that lies over it: the nine fields with the positions of R28. -/
theorem StatusFields.getLsbD_pack {k : Nat} (hk : k < 75) :
    f.pack.getLsbD k =
      (f.state.getLsbD k || decide (1 < k) && f.waitX.getLsbD (k - 2) || decide (6 ≤ k) && f.waitBase.getLsbD (k - 6) ||
        decide (22 ≤ k) && f.faultKind.getLsbD (k - 22) || decide (25 ≤ k) && f.faultPc.getLsbD (k - 25) ||
        decide (41 ≤ k) && f.faultInstr.getLsbD (k - 41) || decide (57 ≤ k) && f.faultInstrValid.getLsbD (k - 57) ||
        decide (58 ≤ k) && f.faultAddr.getLsbD (k - 58) || decide (74 ≤ k) && f.faultProtected.getLsbD (k - 74)) := by
  simp [StatusFields.pack, hk, ← decide_not]

theorem StatusFields.pack_state : f.pack.extractLsb' 0 2 = f.state := by
  ext k hk; grind [StatusFields.getLsbD_pack]

theorem StatusFields.pack_waitX : f.pack.extractLsb' 2 4 = f.waitX := by
  ext k hk; grind [StatusFields.getLsbD_pack]

theorem StatusFields.pack_waitBase : f.pack.extractLsb' 6 16 = f.waitBase := by
  ext k hk; grind [StatusFields.getLsbD_pack]

theorem StatusFields.pack_faultKind : f.pack.extractLsb' 22 3 = f.faultKind := by
  ext k hk; grind [StatusFields.getLsbD_pack]

theorem StatusFields.pack_faultPc : f.pack.extractLsb' 25 16 = f.faultPc := by
  ext k hk; grind [StatusFields.getLsbD_pack]

theorem StatusFields.pack_faultInstr : f.pack.extractLsb' 41 16 = f.faultInstr := by
  ext k hk; grind [StatusFields.getLsbD_pack]

theorem StatusFields.pack_faultInstrValid : f.pack.getLsbD 57 = f.faultInstrValid.getLsbD 0 := by
  grind [StatusFields.getLsbD_pack]

theorem StatusFields.pack_faultAddr : f.pack.extractLsb' 58 16 = f.faultAddr := by
  ext k hk; grind [StatusFields.getLsbD_pack]

theorem StatusFields.pack_faultProtected : f.pack.getLsbD 74 = f.faultProtected.getLsbD 0 := by
  grind [StatusFields.getLsbD_pack]

end

/-- A waiting core's register is clear from FAULT_KIND on (R28). -/
theorem Status.toBits_waiting_fault (wx : Reg) (base : Word) :
    (Status.toBits (.waiting wx base)).extractLsb' 22 53 = 0 := by
  ext k hk; grind [Status.toBits, Status.fields, StatusFields.getLsbD_pack]

/-- A faulted core's register is clear in both wait fields (R28). -/
theorem Status.toBits_faulted_wait (f : FaultRecord) : (Status.toBits (.faulted f)).extractLsb' 2 20 = 0 := by
  ext k hk; grind [Status.toBits, Status.fields, StatusFields.getLsbD_pack]

/-- Settles O59: each field of `Status.fields` is read back from the register, and the bits of those that do not apply are
clear. -/
theorem statusRegisterLayout : Obligations.StatusRegisterLayout := by
  refine ⟨by decide, by decide, fun wx base => ?waiting, fun f => ?faulted⟩
  case waiting =>
    exact ⟨StatusFields.pack_state _, StatusFields.pack_waitX _, StatusFields.pack_waitBase _,
      Status.toBits_waiting_fault wx base⟩
  case faulted =>
    refine ⟨StatusFields.pack_state _, Status.toBits_faulted_wait f, (StatusFields.pack_faultKind _).trans ?kind,
      StatusFields.pack_faultPc _, StatusFields.pack_faultInstr _, (StatusFields.pack_faultInstrValid _).trans ?valid,
      StatusFields.pack_faultAddr _, (StatusFields.pack_faultProtected _).trans ?prot⟩
    case kind =>
      change f.kind.code = _
      cases f.kind <;> rfl
    case valid => simp [Status.fields]
    case prot => simp [Status.fields]

/-- Settles O60: `sound_on` by its law; the other two outputs are the state's own fields. -/
theorem outputsAreViews : Obligations.OutputsAreViews :=
  fun s => ⟨s.soundOn_iff, rfl, rfl⟩

end Sys2Proof.Machine
end

section
/-! PROOFS. The fetch (spec/20_memory.md §3): the word at PC and the instruction it spells (R37, R57), and the step that
executes it (R59). -/

namespace Sys2Proof

/-- Two bytes make a word with the first as its upper half (R37). -/
theorem toNat_wordOfBytes (hi lo : Byte) : (wordOfBytes hi lo).toNat = hi.toNat * 256 + lo.toNat := by
  have hhi := hi.isLt
  have hlo := lo.isLt
  rw [wordOfBytes, BitVec.toNat_or, BitVec.toNat_shiftLeft, BitVec.toNat_setWidth_of_le (by decide),
    BitVec.toNat_setWidth_of_le (by decide), Nat.mod_eq_of_lt (by rw [Nat.shiftLeft_eq]; omega),
    ← Nat.shiftLeft_add_eq_or_of_lt hlo, Nat.shiftLeft_eq]

/-- The instruction that a word decodes to has that word as its encoding: each dispatch of R54 fixes `op` and the
discriminant, and the fields hold the rest (R51, R57). The inner matches are those of op 0, of ops 5, 8 and 9, and of ops E
and F. -/
theorem encode_of_decode {w : Word} {i : Instr} (h : decode w = .ok i) : encode i = w := by
  have hXY := wordXY_of_fields w
  have hXYN := wordXYN_of_fields w
  have hXNN := wordXNN_of_fields w
  have hX := wordX_of_fields w
  have hNNN := wordNNN_of_fields w
  unfold decode decodeOp0 decodeOp5 decodeOp8 decodeOp9 decodeOpE decodeOpF at h
  split at h
  case h_17 => cases h
  all_goals rename_i hop; rw [hop] at hXY hXYN hXNN hX hNNN
  case h_1 => split at h <;> cases h <;> rename_i hn <;> rw [hn] at hNNN <;> exact hNNN
  case h_6 | h_9 | h_10 => split at h <;> cases h <;> rename_i hn <;> rw [hn] at hXY <;> exact hXY
  case h_15 | h_16 => split at h <;> cases h <;> rename_i hn <;> rw [hn] at hX <;> exact hX
  all_goals cases h; assumption

end Sys2Proof

namespace Sys2Proof.Machine

/-! ### The step of a running core -/

/-- The step of a running core is the Running branch of R59. -/
theorem step_of_running {s : State} (hn : s.nextTransaction = .step) (hs : s.status = .running) :
    step s = runningStep s.takeTransaction := by
  rw [step_of_next hn, transact, stepTransaction, State.takeTransaction_status, hs]

/-- A core that runs `i` next executes it (R59). -/
theorem step_of_runs {s : State} {i : Instr} (h : s.runs i) : step s = exec i s.takeTransaction := by
  obtain ⟨hn, hs, hpc, hd⟩ := h
  have hd' : decode s.takeTransaction.fetchWord = .ok i := hd
  rw [step_of_running hn hs, runningStep, if_pos ((State.fetchInside_iff s.takeTransaction).2 hpc), hd']

/-- A running core with PC past 0xFFE faults on the fetch (R40). -/
theorem step_of_outside {s : State} (hn : s.nextTransaction = .step) (hs : s.status = .running)
    (hpc : 0xFFE < s.pc.toNat) : step s = .next s.takeTransaction.raiseFetch := by
  have hout : ¬ s.takeTransaction.fetchInside = true := by
    rw [State.fetchInside_iff, State.takeTransaction_pc]; omega
  rw [step_of_running hn hs, runningStep, if_neg hout]

/-- Settles O7: the value of a word made of two bytes, at PC. -/
theorem fetchIsBigEndian : Obligations.FetchIsBigEndian :=
  fun s => toNat_wordOfBytes (s.readByte s.pc.toNat) (s.readByte (s.pc.toNat + 1))

/-! ### Placing a word (notes/assumptions/4.md) -/

/-- A number of the opcode table decodes to what its word decodes to (R50, R57). -/
theorem decodeTableWord_eq_some {nbits w : Nat} {i : Instr} (h : decodeTableWord nbits w = some i) :
    decode (tableWord nbits w) = .ok i := by
  have hb := decodeBytes_bytesOfWord (tableWord nbits w) []
  rw [List.append_nil] at hb
  rw [decodeTableWord, hb] at h
  cases hd : decode (tableWord nbits w) with
  | ok j => rw [hd] at h; cases h; rfl
  | error e => rw [hd] at h; cases h

section
variable (s : State) (w : Word)

theorem State.placeWord_pc_le : (s.placeWord w).pc.toNat ≤ 0xFFE := by
  by_cases h : s.fetchInside = true
  · simpa [State.placeWord, h] using (s.fetchInside_iff).1 h
  · simp [State.placeWord, h, Config.programBase]

theorem State.placeWord_nextTransaction : (s.placeWord w).nextTransaction = .step := by
  simp only [State.placeWord, State.nextTransaction]
  rcases s.schedule with _ | ⟨t, rest⟩
  · rfl
  · cases t <;> rfl

/-- The word placed is the word that stands at PC (R37). -/
theorem State.placeWord_fetchWord : (s.placeWord w).fetchWord = w := by
  have hread (q : Nat) := Memory.read_writeBytes (F := s.params.font) (bytesOfWord w) s.mem (s.placeWord w).pc.toNat q
  have hhi : (s.placeWord w).readByte (s.placeWord w).pc.toNat = w.extractLsb' 8 8 :=
    (hread _).trans (by simp [bytesOfWord])
  have hlo : (s.placeWord w).readByte ((s.placeWord w).pc.toNat + 1) = w.extractLsb' 0 8 :=
    (hread _).trans (by simp [bytesOfWord])
  rw [State.fetchWord, hhi, hlo, wordOfBytes_bytesOfWord]

end

/-- Settles O6: the placed word stands at a PC inside memory, STATUS is Running and the next transaction is a step, so the
core runs what the word decodes to. -/
theorem placedWordRunsNext : Obligations.PlacedWordRunsNext := by
  intro s w i _ hd
  have hword : decode (s.withFetchWord 16 w).fetchWord = .ok i := by
    rw [State.withFetchWord, State.placeWord_fetchWord]
    exact decodeTableWord_eq_some hd
  exact step_of_runs ⟨s.placeWord_nextTransaction _, rfl, s.placeWord_pc_le _, hword⟩

end Sys2Proof.Machine
end

section
/-! PROOFS. Accesses through I and faults (spec/20_memory.md §2, §3): what an access can do, which bytes change (R35, R36,
R41, R48), and the causes of a fault (R105, R108). -/

namespace Sys2Proof.Machine

/-! ### The font check (R36) -/

/-- The font check names `q` exactly when `q` is the lowest address of the store in the font region. -/
theorem fontHit_eq_some_iff {a len q : Nat} :
    fontHit a len = some q ↔ a ≤ q ∧ q < a + len ∧ 0x050 ≤ q ∧ q ≤ 0x09F ∧
      ∀ p, a ≤ p → p < q → ¬ (0x050 ≤ p ∧ p ≤ 0x09F) := by
  simp only [← and_assoc (a := 0x050 ≤ q), ← inFont_iff, Bool.not_eq_true]
  refine ⟨fontHit_some, fun ⟨hle, hlt, hfont, hlow⟩ => ?_⟩
  cases h : fontHit a len with
  | none =>
    have hclear := fontHit_none.1 h (q - a) (by omega)
    rw [show a + (q - a) = q by omega, hfont] at hclear
    cases hclear
  | some p =>
    obtain ⟨hle', -, hfont', hlow'⟩ := fontHit_some h
    have hpq : ¬ p < q := fun hlt' => by simp [hlow p hle' hlt'] at hfont'
    have hqp : ¬ q < p := fun hlt' => by simp [hlow' q hle hlt'] at hfont
    rw [show p = q by omega]

/-- A store that the font check lets through covers no address of 0x050-0x09F. -/
theorem not_font_of_fontHit_none {a len q : Nat} (h : fontHit a len = none) (hle : a ≤ q) (hlt : q < a + len) :
    ¬ (0x050 ≤ q ∧ q ≤ 0x09F) := by
  have hclear := fontHit_none.1 h (q - a) (by omega)
  rw [show a + (q - a) = q by omega] at hclear
  rw [← inFont_iff, hclear]
  exact Bool.false_ne_true

/-- A store that does not meet the font passes the font check. -/
theorem fontHit_none_of_not_meetsFont {s : State} {len : Nat} (h : ¬ s.meetsFont len) :
    fontHit s.i.toNat len = none := by
  cases hf : fontHit s.i.toNat len with
  | none => rfl
  | some q =>
    obtain ⟨hle, hlt, hlo, hhi, -⟩ := fontHit_eq_some_iff.1 hf
    exact absurd ⟨by omega, by omega, by omega⟩ h

/-- A range inside memory passes the range check (R41). -/
theorem State.rangeFaults_of_insideMemory {s : State} {len : Nat} (h : s.insideMemory len) :
    s.rangeFaults len = false :=
  (s.rangeFaults_false_iff len).2 (.inr h)

/-! ### What an access can do -/

/-- A byte that a run of writes changes is one of the run's (R38, R44). -/
theorem State.written_of_readByte_ne {s : State} {a q len : Nat} {bytes : List Byte} (hlen : bytes.length = len)
    (h : (s.writeBytes a bytes).advance.readByte q ≠ s.readByte q) : a ≤ q ∧ q < a + len := by
  rw [State.advance_readByte] at h
  by_contra hout
  exact h (State.readByte_writeBytes_of_outside (by omega))

/-- An instruction that accesses `len` bytes at I faults on the range; or, being a store, faults on the font; or does its
work, which keeps STATUS and changes no byte but those that a store writes (R36, R38, R41, R108). -/
theorem exec_access_cases {i : Instr} {len : Nat} (s : State) (hlen : instrAccessLength i = some len) :
    (s.rangeFaults len = true ∧ exec i s = .next (s.raiseRange (encode i))) ∨
    (s.rangeFaults len = false ∧ instrIsStore i = true ∧
      ∃ q, fontHit s.i.toNat len = some q ∧ exec i s = .next (s.raiseFont (encode i) q)) ∨
    (s.rangeFaults len = false ∧ (instrIsStore i = true → fontHit s.i.toNat len = none) ∧
      ∃ t, exec i s = .next t ∧ t.status = s.status ∧
        ∀ a, t.readByte a ≠ s.readByte a → s.i.toNat ≤ a ∧ a < s.i.toNat + len) := by
  cases i with
  | drw x y n =>
    cases hlen
    rcases execDrw_cases x y n s with h | ⟨hr, he⟩
    · exact .inl h
    · exact .inr (.inr ⟨hr, nofun, _, he, by simp, by simp⟩)
  | ldVxMem x =>
    cases hlen
    rcases execLdVxMem_cases x s with h | ⟨hr, he⟩
    · exact .inl h
    · exact .inr (.inr ⟨hr, nofun, _, he, by simp, by simp⟩)
  | ldB x =>
    cases hlen
    rcases execLdB_cases x s with h | ⟨hr, h⟩ | ⟨hr, hf, he⟩
    · exact .inl h
    · exact .inr (.inl ⟨hr, rfl, h⟩)
    · exact .inr (.inr ⟨hr, fun _ => hf, _, he, rfl, fun _ => State.written_of_readByte_ne (length_bcdDigits _)⟩)
  | ldMemVx x =>
    cases hlen
    rcases execLdMemVx_cases x s with h | ⟨hr, h⟩ | ⟨hr, hf, he⟩
    · exact .inl h
    · exact .inr (.inl ⟨hr, rfl, h⟩)
    · exact .inr (.inr ⟨hr, fun _ => hf, _, he, rfl, fun _ => State.written_of_readByte_ne (s.length_regsUpTo x)⟩)
  | _ => cases hlen

/-- Settles O41: a range past 0xFFF leaves only the first outcome of an access; an empty range leaves only the last, which
keeps STATUS. -/
theorem accessRangeFault : Obligations.AccessRangeFault := by
  refine ⟨fun i s len hlen hpos hpast => ?_, fun i s hlen => ?_⟩
  · have hrange := (s.rangeFaults_iff len).2 ⟨hpos, hpast⟩
    rcases exec_access_cases s hlen with ⟨-, he⟩ | ⟨hr, -⟩ | ⟨hr, -⟩
    · exact he
    · cases hrange.symm.trans hr
    · cases hrange.symm.trans hr
  · rcases exec_access_cases s hlen with ⟨hr, -⟩ | ⟨-, -, q, hq, -⟩ | ⟨-, -, t, he, hs, -⟩
    · exact absurd ((s.rangeFaults_iff 0).1 hr).1 (lt_irrefl 0)
    · obtain ⟨hle, hlt, -⟩ := fontHit_eq_some_iff.1 hq
      omega
    · exact ⟨t, he, hs⟩

/-- Settles O40: the range check passes and the font check names `a`, so the store's only outcome is the font fault. -/
theorem fontStoreFault : Obligations.FontStoreFault := by
  intro i s len a hstore hlen hinside hle hlt hlo hhi hlowest
  have hrange := State.rangeFaults_of_insideMemory hinside
  have hhit : fontHit s.i.toNat len = some a := fontHit_eq_some_iff.2 ⟨hle, hlt, hlo, hhi, hlowest⟩
  rcases exec_access_cases s hlen with ⟨hr, -⟩ | ⟨-, -, q, hq, he⟩ | ⟨-, hnone, -⟩
  · cases hrange.symm.trans hr
  · cases hhit.symm.trans hq
    exact he
  · cases hhit.symm.trans (hnone hstore)

/-- Only the two store-class instructions may write memory, and each accesses bytes at I (R35). -/
theorem store_of_mem_instrWrites {i : Instr} (h : Component.mem ∈ instrWrites i) :
    instrIsStore i = true ∧ ∃ len, instrAccessLength i = some len := by
  cases i with
  | ldB x => exact ⟨rfl, _, rfl⟩
  | ldMemVx x => exact ⟨rfl, _, rfl⟩
  | _ => simp [instrWrites] at h

/-- Settles O42: by `step_writer` the core ran a store or it was an `init`; of a store's outcomes only the last changes a
byte, one of its range, and there the font check found nothing. -/
theorem onlyStoresWriteMemory : Obligations.OnlyStoresWriteMemory := by
  intro s t a h hne
  have hmem : ¬ Component.mem.same s t := fun hsame => hne (hsame a)
  rcases step_writer h hmem (by decide) with ⟨i, hr, he, hw⟩ | ⟨-, hw⟩ | ⟨_, -, hw⟩ | ⟨rom, hn, -⟩
  · obtain ⟨hstore, len, hlen⟩ := store_of_mem_instrWrites hw
    rcases exec_access_cases s.takeTransaction hlen with ⟨-, he'⟩ | ⟨-, -, q, -, he'⟩ | ⟨-, hnone, u, he', -, hread⟩ <;>
      cases next_inj he he'
    · exact absurd rfl hne
    · exact absurd rfl hne
    · obtain ⟨hle, hlt⟩ := hread a hne
      exact .inr ⟨i, len, hr, hstore, hlen, hle, hlt, not_font_of_fontHit_none (hnone hstore) hle hlt⟩
  · simp at hw
  · cases hw
  · exact .inl ⟨rom, hn⟩

/-- What Fx55 stores at `I + k` is `V[k]` (R90). -/
theorem readByte_writeBytes_regsUpTo (s : State) {x k : Reg} (hk : k.toNat ≤ x.toNat) :
    (s.writeBytes s.i.toNat (s.regsUpTo x)).readByte (s.i.toNat + k.toNat) = s.getV k := by
  have hlen : k.toNat < (s.regsUpTo x).length := by rw [State.length_regsUpTo]; omega
  rw [State.readByte_writeBytes, if_pos (by omega), Nat.add_sub_cancel_left, List.getD_eq_getElem _ _ hlen,
    State.getElem_regsUpTo, BitVec.ofNat_toNat, BitVec.setWidth_eq]

/-- Settles O43: the store goes through, and the fetch reads V[k] and V[k + 1] where it put them. -/
theorem storedWordIsFetched : Obligations.StoredWordIsFetched := by
  intro x k s hk hinside hfont
  have hx := x.isLt
  have hsucc : (k + 1).toNat = k.toNat + 1 := by
    rw [BitVec.toNat_add]; exact Nat.mod_eq_of_lt (by simp; omega)
  refine ⟨(s.writeBytes s.i.toNat (s.regsUpTo x)).advance, ?_, fun u hm hp hpc => ?_⟩
  · exact storeBytes_of_clear (by rw [State.length_regsUpTo]; exact State.rangeFaults_of_insideMemory hinside)
      (by rw [State.length_regsUpTo]; exact fontHit_none_of_not_meetsFont hfont)
  · have hhi := readByte_writeBytes_regsUpTo s (x := x) (k := k) (by omega)
    have hlo := readByte_writeBytes_regsUpTo s (x := x) (k := k + 1) (by omega)
    rw [State.fetchWord, State.readByte_congr hm hp, State.readByte_congr hm hp, hpc, Nat.add_assoc, ← hsucc,
      State.advance_readByte, State.advance_readByte, hhi, hlo]

/-! ### The causes of a fault (R105, R108) -/

/-- An instruction run with STATUS Running that leaves it Faulted is a call on a full stack, a return on an empty one, an
access past 0xFFF, or a store that meets the font; and the fault's record is the one of that cause. -/
theorem exec_fault_cases {i : Instr} {s t : State} {f : FaultRecord} (h : exec i s = .next t)
    (hs : s.status = .running) (hf : t.status = .faulted f) :
    (∃ nnn, i = .call nnn ∧ s.params.stackDepth ≤ s.stack.length ∧
      f = .mk .stackOverflow s.pc (some (encode i)) none false) ∨
    (i = .ret ∧ s.stack = [] ∧ f = .mk .stackUnderflow s.pc (some (encode i)) none false) ∨
    (∃ len, instrAccessLength i = some len ∧ s.rangeFaults len = true ∧
      f = .mk .addressOutOfRange s.pc (some (encode i)) (some 0x1000) false) ∨
    (∃ len q, instrIsStore i = true ∧ instrAccessLength i = some len ∧ s.rangeFaults len = false ∧
      fontHit s.i.toNat len = some q ∧
      f = .mk .addressOutOfRange s.pc (some (encode i)) (some (BitVec.ofNat 16 q)) true) := by
  have kept {P : Prop} (hkeep : t.status = s.status) : P := by
    rw [hf, hs] at hkeep; cases hkeep
  cases hlen : instrAccessLength i with
  | some len =>
    rcases exec_access_cases s hlen with ⟨hr, he⟩ | ⟨hr, hstore, q, hq, he⟩ | ⟨-, -, u, he, hu, -⟩ <;>
      cases next_inj h he
    · cases hf
      exact .inr (.inr (.inl ⟨len, rfl, hr, rfl⟩))
    · cases hf
      exact .inr (.inr (.inr ⟨len, q, hstore, rfl, hr, hq, rfl⟩))
    · exact kept hu
  | none =>
    cases i with
    | call nnn =>
      rcases execCall_cases nnn s with ⟨hfull, he⟩ | ⟨-, he⟩ <;> cases next_inj h he
      · cases hf
        exact .inl ⟨nnn, rfl, hfull, rfl⟩
      · exact kept rfl
    | ret =>
      rcases execRet_cases s with ⟨hempty, he⟩ | ⟨_, _, -, he⟩ <;> cases next_inj h he
      · cases hf
        exact .inr (.inl ⟨rfl, hempty, rfl⟩)
      · exact kept rfl
    | ldVxK x => cases h; cases hf
    | drw | ldB | ldMemVx | ldVxMem => cases hlen
    | _ => cases h; exact kept rfl

/-- Settles O11: the step's outcomes in the order of R108: fetch, decode, then the instruction's own checks, where the
recorded encoding is the fetched word. -/
theorem faultsHaveOnlyTheirCauses : Obligations.FaultsHaveOnlyTheirCauses := by
  intro s t f hn hs h hf
  rw [step_of_next hn] at h
  rcases stepTransaction_cases h with
    ⟨_, hs', -⟩ | ⟨_, _, hs', -⟩ | ⟨-, hout, rfl⟩ | ⟨-, hin, he, rfl⟩ | ⟨-, hin, i, hd, he⟩
  · cases hs.symm.trans hs'
  · cases hs.symm.trans hs'
  · cases hf
    have hpc := mt (State.fetchInside_iff s).2 (Bool.not_eq_true _ ▸ hout)
    exact .inl ⟨by omega, rfl⟩
  · cases hf
    exact .inr (.inl ⟨he, (State.fetchInside_iff s).1 hin, rfl⟩)
  · have hword : encode i = s.fetchWord := encode_of_decode hd
    have hruns : s.runs i := ⟨hn, hs, (State.fetchInside_iff s).1 hin, hd⟩
    have hcause := exec_fault_cases he hs hf
    rw [hword] at hcause
    rcases hcause with ⟨nnn, rfl, hfull, rfl⟩ | ⟨rfl, hempty, rfl⟩ | ⟨len, hlen, hr, rfl⟩ |
      ⟨len, q, hstore, hlen, hr, hq, rfl⟩
    · exact .inr (.inr (.inl ⟨nnn, hruns, hfull, rfl⟩))
    · exact .inr (.inr (.inr (.inl ⟨hruns, hempty, rfl⟩)))
    · obtain ⟨hpos, hpast⟩ := (State.rangeFaults_iff _ _).1 hr
      exact .inr (.inr (.inr (.inr (.inl ⟨i, len, hruns, hlen, hpos, hpast, rfl⟩))))
    · obtain ⟨hle, hlt, hlo, hhi, hlowest⟩ := fontHit_eq_some_iff.1 hq
      have hinside : s.insideMemory len :=
        ((State.rangeFaults_false_iff _ _).1 hr).resolve_left (by omega)
      exact .inr (.inr (.inr (.inr (.inr ⟨i, len, q, hruns, hstore, hlen, hinside, hle, hlt, hlo, hhi, hlowest, rfl⟩))))

/-- Settles O8: past 0xFFE the step is the fetch fault; and of the six causes of a fault the fetch's alone records no word. -/
theorem fetchRangeFault : Obligations.FetchRangeFault := by
  refine ⟨fun s hn hs hpc => step_of_outside hn hs hpc, fun s t f hn hs hpc h hf => ?_⟩
  rcases faultsHaveOnlyTheirCauses s t f hn hs h hf with
    ⟨hout, -⟩ | ⟨-, -, rfl⟩ | ⟨_, -, -, rfl⟩ | ⟨-, -, rfl⟩ | ⟨_, _, -, -, -, -, rfl⟩ |
    ⟨_, _, _, -, -, -, -, -, -, -, -, -, rfl⟩
  · omega
  all_goals exact Option.some_ne_none _

end Sys2Proof.Machine
end

section
/-! PROOFS. The encoding (spec/30_encoding.md): decode and encode are inverse to each other (R57, R58), the rows of the
opcode map exclude each other (R53), the illegal words (R55); and the step that runs or refuses the fetched word (R55, R59, R60). -/

namespace Sys2Proof

/-! ### Decoding an encoding -/

/-- The laws made for each instruction (R53), as one. -/
theorem Instr.spellsRow : ∀ i : Instr, Laws.SpellsRow.Statement i
  | .cls => Laws.SpellsRow.cls
  | .ret => Laws.SpellsRow.ret
  | .jp nnn => Laws.SpellsRow.jp nnn
  | .call nnn => Laws.SpellsRow.call nnn
  | .seImm x nn => Laws.SpellsRow.seImm x nn
  | .sneImm x nn => Laws.SpellsRow.sneImm x nn
  | .seReg x y => Laws.SpellsRow.seReg x y
  | .ldImm x nn => Laws.SpellsRow.ldImm x nn
  | .addImm x nn => Laws.SpellsRow.addImm x nn
  | .ldReg x y => Laws.SpellsRow.ldReg x y
  | .orReg x y => Laws.SpellsRow.orReg x y
  | .andReg x y => Laws.SpellsRow.andReg x y
  | .xorReg x y => Laws.SpellsRow.xorReg x y
  | .addReg x y => Laws.SpellsRow.addReg x y
  | .subReg x y => Laws.SpellsRow.subReg x y
  | .shrReg x y => Laws.SpellsRow.shrReg x y
  | .subnReg x y => Laws.SpellsRow.subnReg x y
  | .shlReg x y => Laws.SpellsRow.shlReg x y
  | .sneReg x y => Laws.SpellsRow.sneReg x y
  | .ldI nnn => Laws.SpellsRow.ldI nnn
  | .jpV0 nnn => Laws.SpellsRow.jpV0 nnn
  | .rnd x nn => Laws.SpellsRow.rnd x nn
  | .drw x y n => Laws.SpellsRow.drw x y n
  | .skp x => Laws.SpellsRow.skp x
  | .sknp x => Laws.SpellsRow.sknp x
  | .ldVxDT x => Laws.SpellsRow.ldVxDT x
  | .ldVxK x => Laws.SpellsRow.ldVxK x
  | .ldDTVx x => Laws.SpellsRow.ldDTVx x
  | .ldSTVx x => Laws.SpellsRow.ldSTVx x
  | .addI x => Laws.SpellsRow.addI x
  | .ldF x => Laws.SpellsRow.ldF x
  | .ldB x => Laws.SpellsRow.ldB x
  | .ldMemVx x => Laws.SpellsRow.ldMemVx x
  | .ldVxMem x => Laws.SpellsRow.ldVxMem x

/-- The decoder reads an instruction back from its encoding (R58). The cases go by the layout of the encoding: `op` is
that of the base, a numeral, and decides the primary dispatch of R54; every other field is the base's own with its operand filled in,
by the laws of the layout. -/
theorem decode_encode (i : Instr) : decode (encode i) = .ok i := by
  cases i with
  | cls | ret => rfl
  | jp | call | ldI | jpV0 =>
    rw [encode, decode, opField_wordNNN]
    simp only [opField, BitVec.reduceExtractLsb', nnnField_wordNNN]
    simp [nnnField]
  | seImm | sneImm | ldImm | addImm | rnd =>
    rw [encode, decode, opField_wordXNN]
    simp only [opField, BitVec.reduceExtractLsb', xField_wordXNN, nnField_wordXNN]
    simp [xField, nnField]
  | drw =>
    rw [encode, decode, opField_wordXYN]
    simp only [opField, BitVec.reduceExtractLsb', xField_wordXYN, yField_wordXYN, nField_wordXYN]
    simp [xField, yField, nField]
  | seReg | ldReg | orReg | andReg | xorReg | addReg | subReg | shrReg | subnReg | shlReg | sneReg =>
    rw [encode, decode, opField_wordXY]
    simp only [opField, BitVec.reduceExtractLsb', decodeOp5, decodeOp8, decodeOp9, xField_wordXY, yField_wordXY,
      nField_wordXY]
    simp [xField, yField, nField]
  | skp | sknp | ldVxDT | ldVxK | ldDTVx | ldSTVx | addI | ldF | ldB | ldMemVx | ldVxMem =>
    rw [encode, decode, opField_wordX]
    simp only [opField, BitVec.reduceExtractLsb', decodeOpE, decodeOpF, xField_wordX, nnField_wordX]
    simp [xField, nnField]

/-- Settles O1: the first half is the per-instruction law, the second is `decode_encode`. -/
theorem decodeOfEncodeIsTheInstruction : Obligations.DecodeOfEncodeIsTheInstruction := by
  intro i
  obtain ⟨hwf, -⟩ := i.spellsRow
  exact ⟨hwf, decode_encode i⟩

/-! ### At most one row matches a word (R53) -/

/-- Two rows overlap when their patterns agree on every bit that both masks test. -/
def OpcodeRow.overlaps (a b : OpcodeRow) : Bool := a.pattern &&& b.mask == b.pattern &&& a.mask

/-- Rows that match the same word overlap: both patterns are the word under their masks. -/
theorem OpcodeRow.overlaps_of_spells {a b : OpcodeRow} {w : Word} (ha : a.spells w = true) (hb : b.spells w = true) :
    a.overlaps b = true := by
  have ha : w &&& a.mask = a.pattern := eq_of_beq ha
  have hb : w &&& b.mask = b.pattern := eq_of_beq hb
  rw [OpcodeRow.overlaps, beq_iff_eq, ← ha, ← hb, BitVec.and_assoc, BitVec.and_assoc, BitVec.and_comm a.mask]

/-- Each row of the opcode map overlaps no row of it but itself. -/
theorem opcodeMap_filter_overlaps : ∀ row ∈ opcodeMap, opcodeMap.filter (·.overlaps row) = [row] := by decide

/-- The row that matches a word is the only one. -/
theorem opcodeMap_filter_spells {row : OpcodeRow} {w : Word} (hmem : row ∈ opcodeMap) (h : row.spells w = true) :
    opcodeMap.filter (·.spells w) = [row] := by
  have hoverlap : ∀ a ∈ opcodeMap, a.spells w = (a.spells w && a.overlaps row) := by
    intro a _
    cases ha : a.spells w with
    | false => rfl
    | true => exact (OpcodeRow.overlaps_of_spells ha h).symm
  calc opcodeMap.filter (·.spells w)
      = (opcodeMap.filter (·.overlaps row)).filter (·.spells w) := by
        rw [List.filter_filter]; exact List.filter_congr hoverlap
    _ = [row] := by rw [opcodeMap_filter_overlaps row hmem, List.filter_singleton, h]; rfl

/-! ### A word that a row matches is an encoding -/

section
variable {b w : Word}

theorem wordNNN_of_spells (h : (OpcodeRow.mk b 0xF000).spells w = true) : wordNNN b (nnnField w) = w := by
  rw [← show w &&& 0xF000#16 = b from eq_of_beq h]
  ext k hk; interval_cases k <;> simp [wordNNN, nnnField]

theorem wordXNN_of_spells (h : (OpcodeRow.mk b 0xF000).spells w = true) : wordXNN b (xField w) (nnField w) = w := by
  rw [← show w &&& 0xF000#16 = b from eq_of_beq h]
  ext k hk; interval_cases k <;> simp [wordXNN, xField, nnField]

theorem wordXYN_of_spells (h : (OpcodeRow.mk b 0xF000).spells w = true) :
    wordXYN b (xField w) (yField w) (nField w) = w := by
  rw [← show w &&& 0xF000#16 = b from eq_of_beq h]
  ext k hk; interval_cases k <;> simp [wordXYN, wordXY, xField, yField, nField]

theorem wordXY_of_spells (h : (OpcodeRow.mk b 0xF00F).spells w = true) : wordXY b (xField w) (yField w) = w := by
  rw [← show w &&& 0xF00F#16 = b from eq_of_beq h]
  ext k hk; interval_cases k <;> simp [wordXY, xField, yField]

theorem wordX_of_spells (h : (OpcodeRow.mk b 0xF0FF).spells w = true) : wordX b (xField w) = w := by
  rw [← show w &&& 0xF0FF#16 = b from eq_of_beq h]
  ext k hk; interval_cases k <;> simp [wordX, xField]

theorem eq_of_spells (h : (OpcodeRow.mk b 0xFFFF).spells w = true) : b = w :=
  (show w &&& 0xFFFF#16 = b from eq_of_beq h).symm.trans BitVec.and_allOnes

end

/-- The opcode map names nothing that the instruction set lacks: row by row, the instruction whose encoding the word is
(R53, R58). -/
theorem exists_encode_of_spells (w : Word) : ∀ row ∈ opcodeMap, row.spells w = true → ∃ i, encode i = w := by
  simp only [opcodeMap, List.cons_append, List.nil_append, List.forall_mem_cons]
  exact ⟨fun h => ⟨.cls, eq_of_spells h⟩, fun h => ⟨.ret, eq_of_spells h⟩,
    fun h => ⟨.jp _, wordNNN_of_spells h⟩, fun h => ⟨.call _, wordNNN_of_spells h⟩,
    fun h => ⟨.seImm _ _, wordXNN_of_spells h⟩, fun h => ⟨.sneImm _ _, wordXNN_of_spells h⟩,
    fun h => ⟨.seReg _ _, wordXY_of_spells h⟩, fun h => ⟨.ldImm _ _, wordXNN_of_spells h⟩,
    fun h => ⟨.addImm _ _, wordXNN_of_spells h⟩, fun h => ⟨.ldReg _ _, wordXY_of_spells h⟩,
    fun h => ⟨.orReg _ _, wordXY_of_spells h⟩, fun h => ⟨.andReg _ _, wordXY_of_spells h⟩,
    fun h => ⟨.xorReg _ _, wordXY_of_spells h⟩, fun h => ⟨.addReg _ _, wordXY_of_spells h⟩,
    fun h => ⟨.subReg _ _, wordXY_of_spells h⟩, fun h => ⟨.shrReg _ _, wordXY_of_spells h⟩,
    fun h => ⟨.subnReg _ _, wordXY_of_spells h⟩, fun h => ⟨.shlReg _ _, wordXY_of_spells h⟩,
    fun h => ⟨.sneReg _ _, wordXY_of_spells h⟩, fun h => ⟨.ldI _, wordNNN_of_spells h⟩,
    fun h => ⟨.jpV0 _, wordNNN_of_spells h⟩, fun h => ⟨.rnd _ _, wordXNN_of_spells h⟩,
    fun h => ⟨.drw _ _ _, wordXYN_of_spells h⟩, fun h => ⟨.skp _, wordX_of_spells h⟩,
    fun h => ⟨.sknp _, wordX_of_spells h⟩, fun h => ⟨.ldVxDT _, wordX_of_spells h⟩,
    fun h => ⟨.ldVxK _, wordX_of_spells h⟩, fun h => ⟨.ldDTVx _, wordX_of_spells h⟩,
    fun h => ⟨.ldSTVx _, wordX_of_spells h⟩, fun h => ⟨.addI _, wordX_of_spells h⟩,
    fun h => ⟨.ldF _, wordX_of_spells h⟩, fun h => ⟨.ldB _, wordX_of_spells h⟩,
    fun h => ⟨.ldMemVx _, wordX_of_spells h⟩, fun h => ⟨.ldVxMem _, wordX_of_spells h⟩, nofun⟩

/-- Settles O2: a decoded word is its instruction's encoding, so that instruction's row matches it, alone; and a row that
matched a refused word would make it an encoding, which decodes. -/
theorem decodeIsTheUniqueRow : Obligations.DecodeIsTheUniqueRow := by
  intro w
  cases hd : decode w with
  | ok i =>
    have hword := encode_of_decode hd
    obtain ⟨hwf, hspells⟩ := i.spellsRow
    rw [hword] at hspells
    exact .inl ⟨i, rfl, opcodeMap_filter_spells (List.contains_iff_mem.1 hwf) hspells, hword⟩
  | error e =>
    refine .inr ⟨by rw [decode_error hd], List.filter_eq_nil_iff.2 fun row hmem hspells => ?_⟩
    obtain ⟨i, rfl⟩ := exists_encode_of_spells w row hmem hspells
    cases (decode_encode i).symm.trans hd

/-! ### The illegal words (R55): what each secondary dispatch of R54 refuses -/

section
variable (w : Word)

@[simp] theorem decodeOp0_eq_error_iff :
    decodeOp0 w = .error (.invalidOpcode w) ↔ nnnField w ≠ 0x0E0 ∧ nnnField w ≠ 0x0EE := by
  unfold decodeOp0; split <;> simp_all

@[simp] theorem decodeOp5_eq_error_iff : decodeOp5 w = .error (.invalidOpcode w) ↔ nField w ≠ 0x0 := by
  unfold decodeOp5; split <;> simp_all

/-- The values that `n` has left when it selects no operation are seven. -/
@[simp] theorem decodeOp8_eq_error_iff :
    decodeOp8 w = .error (.invalidOpcode w) ↔ nField w ∈ [0x8, 0x9, 0xA, 0xB, 0xC, 0xD, 0xF] := by
  unfold decodeOp8
  split
  case h_10 => simp_all; bv_omega
  all_goals simp_all

@[simp] theorem decodeOp9_eq_error_iff : decodeOp9 w = .error (.invalidOpcode w) ↔ nField w ≠ 0x0 := by
  unfold decodeOp9; split <;> simp_all

@[simp] theorem decodeOpE_eq_error_iff : decodeOpE w = .error (.invalidOpcode w) ↔ nnField w ∉ [0x9E, 0xA1] := by
  unfold decodeOpE; split <;> simp_all

@[simp] theorem decodeOpF_eq_error_iff : decodeOpF w = .error (.invalidOpcode w) ↔
    nnField w ∉ [0x07, 0x0A, 0x15, 0x18, 0x1E, 0x29, 0x33, 0x55, 0x65] := by
  unfold decodeOpF; split <;> simp_all

end

/-- Settles O3: the list of R55 has one line for each value of `op` with a secondary dispatch, and that line says what the
dispatch refuses; every other value of `op` is an instruction. The match's last arm is for no value of `op`. -/
theorem illegalWordsAreTheListed : Obligations.IllegalWordsAreTheListed := by
  intro w
  unfold decode
  split
  case h_17 => exfalso; simp only [imp_false] at *; bv_omega
  all_goals rename_i hop; simp [Machine.isListedIllegal, hop]

/-- Settles O4: three words are encodings, and three stand in the list of R55, under op 0, op 5 and op E. -/
theorem specDecodeExamples : Obligations.SpecDecodeExamples :=
  ⟨decode_encode (.drw 1 2 5), decode_encode (.shrReg 0xA 0xB), decode_encode (.ldVxMem 3),
    (illegalWordsAreTheListed 0x0123).2 (.inl (by decide)),
    (illegalWordsAreTheListed 0x5001).2 (.inr (.inl (by decide))),
    (illegalWordsAreTheListed 0xE19F).2 (.inr (.inr (.inr (.inr (.inl (by decide))))))⟩

end Sys2Proof

namespace Sys2Proof.Machine

/-! ### The step on the fetched word -/

/-- Settles O26: outside the instructions that set `next`, an outcome that is no fault is an advance of a state with the
same PC; the others are ruled out by STATUS. -/
theorem straightLineAdvance : Obligations.StraightLineAdvance := by
  intro i s t hnext _ h ht
  cases i with
  | ret | jp | call | seImm | sneImm | seReg | sneReg | jpV0 | skp | sknp | ldVxK => cases hnext
  | drw x y n =>
    rcases execDrw_cases x y n s with ⟨-, he⟩ | ⟨-, he⟩ <;> cases next_inj h he
    · cases ht
    · simp
  | ldVxMem x =>
    rcases execLdVxMem_cases x s with ⟨-, he⟩ | ⟨-, he⟩ <;> cases next_inj h he
    · cases ht
    · simp
  | ldB x =>
    rcases execLdB_cases x s with ⟨-, he⟩ | ⟨-, _, -, he⟩ | ⟨-, -, he⟩ <;> cases next_inj h he
    · cases ht
    · cases ht
    · simp
  | ldMemVx x =>
    rcases execLdMemVx_cases x s with ⟨-, he⟩ | ⟨-, _, -, he⟩ | ⟨-, -, he⟩ <;> cases next_inj h he
    · cases ht
    · cases ht
    · simp
  | rnd x nn => cases h; simp [rndWith]
  | _ => cases h; simp

/-- Settles O5: `State.runs` is what the Running branch of R59 checks on its way to `exec`. -/
theorem stepRunsTheDecodedInstruction : Obligations.StepRunsTheDecodedInstruction :=
  fun _ _ => step_of_runs

/-- Settles O9: the fetch check passes and decode refuses, so the Running branch of R59 raises R55's fault. -/
theorem illegalWordFault : Obligations.IllegalWordFault := by
  intro s e hn hs hpc hd
  have hd' : decode s.takeTransaction.fetchWord = .error e := hd
  rw [step_of_running hn hs, runningStep, if_pos ((State.fetchInside_iff s.takeTransaction).2 hpc), hd']
  rfl

end Sys2Proof.Machine
end

section
/-! PROOFS. Control flow (spec/40_control_flow.md): RET, JP, CALL and JP V0 (R63, R64, R65, R70), and the skips on registers
(R66-R69). -/

namespace Sys2Proof.Machine

/-! ### Jumps and skips: the new PC, and the frame -/

/-- A jump changes PC alone (R62). -/
theorem unchangedExcept_jump (s : State) (a : Word) : UnchangedExcept [] [.pc] s (s.jump a) :=
  ⟨fun _ _ => rfl, fun _ hc => (Component.same_jump (List.ne_of_not_mem_cons hc) a).2 Component.same_rfl⟩

/-- A jump with another call stack changes PC and the stack alone (R63, R65). -/
theorem unchangedExcept_withStack_jump (s : State) (l : List Word) (a : Word) :
    UnchangedExcept [] [.pc, .stack] s (State.jump { s with stack := l } a) := by
  refine ⟨fun _ _ => rfl, fun c hc => ?_⟩
  obtain ⟨hpc, hstack⟩ : c ≠ .pc ∧ c ≠ .stack := by simpa using hc
  rw [Component.same_jump hpc, Component.same_withStack hstack]
  exact Component.same_rfl

/-- A skip changes PC alone (R60). -/
theorem unchangedExcept_skipIf (s : State) (b : Bool) : UnchangedExcept [] [.pc] s (s.skipIf b) :=
  ⟨fun _ _ => rfl, fun _ hc => (Component.same_skipIf (List.ne_of_not_mem_cons hc) b).2 Component.same_rfl⟩

/-- An instruction whose only outcome is a skip on `b`, the test of `p`: PC + 4 when `p` holds and PC + 2 otherwise, and
nothing else changes (R60). -/
theorem exec_skip {i : Instr} {s : State} {b : Bool} {p : Prop} [Decidable p] (h : exec i s = .next (s.skipIf b))
    (hb : b = true ↔ p) :
    ∃ t, exec i s = .next t ∧ t.pc = (if p then s.pc + 4 else s.pc + 2) ∧ UnchangedExcept [] [.pc] s t := by
  refine ⟨_, h, ?_, unchangedExcept_skipIf s b⟩
  simp only [State.skipIf_pc, hb]

/-- `nnn + V[0]` is at most 0xFFF + 0xFF, so the target of Bnnn is the exact sum (R70). -/
theorem toNat_indexedTarget (nnn : Addr12) (v0 : Byte) : (indexedTarget nnn v0).toNat = nnn.toNat + v0.toNat := by
  have hnnn : nnn.toNat < 4096 := nnn.isLt
  have hv0 : v0.toNat < 256 := v0.isLt
  rw [indexedTarget, BitVec.toNat_ofNat]
  exact Nat.mod_eq_of_lt (by omega)

/-! ### CALL and RET, each outcome by its condition -/

/-- RET on a stack with an entry: the top is popped into PC (R63). -/
theorem execRet_of_cons {s : State} {a : Word} {rest : List Word} (h : s.stack = a :: rest) :
    exec .ret s = .next (State.jump { s with stack := rest } a) := by
  rcases execRet_cases s with ⟨hnil, -⟩ | ⟨a', rest', hcons, he⟩
  · cases h.symm.trans hnil
  · cases h.symm.trans hcons
    exact he

/-- RET on an empty stack: StackUnderflow (R63). -/
theorem execRet_of_nil {s : State} (h : s.stack = []) :
    exec .ret s = .next (s.raise .stackUnderflow (some (encode .ret)) none false) := by
  rcases execRet_cases s with ⟨-, he⟩ | ⟨a, rest, hcons, -⟩
  · exact he
  · cases h.symm.trans hcons

/-- CALL with room on the stack: PC + 2 is pushed, and PC jumps (R65). -/
theorem execCall_of_lt {s : State} (nnn : Addr12) (h : s.stack.length < s.params.stackDepth) :
    exec (.call nnn) s = .next (State.jump { s with stack := (s.pc + 2) :: s.stack } (addrOf nnn)) := by
  rcases execCall_cases nnn s with ⟨hfull, -⟩ | ⟨-, he⟩
  · omega
  · exact he

/-- CALL on a full stack: StackOverflow (R65). -/
theorem execCall_of_le {s : State} (nnn : Addr12) (h : s.params.stackDepth ≤ s.stack.length) :
    exec (.call nnn) s = .next (s.raise .stackOverflow (some (encode (.call nnn))) none false) := by
  rcases execCall_cases nnn s with ⟨-, he⟩ | ⟨hroom, -⟩
  · exact he
  · omega

/-! ### The low nibble of 5xy0 and 9xy0 -/

/-- Over a base whose own low nibble is 0, the low nibble of the word is the `n` filled in (R51, R68). -/
theorem nField_wordXYN_ne_zero {b : Word} (hb : nField b = 0) (x y : Reg) {n : Nibble} (hn : n ≠ 0) :
    nField (wordXYN b x y n) ≠ 0 := by
  rw [nField_wordXYN, hb]
  simpa using hn

/-! ### The statements -/

/-- Settles O19: the stack decides RET's outcome, a jump to the entry popped or the fault, which `State.latched` writes
out. -/
theorem returnPopsIntoPc : Obligations.ReturnPopsIntoPc :=
  ⟨rfl, fun s a rest hs => ⟨_, execRet_of_cons hs, rfl, rfl, unchangedExcept_withStack_jump s rest a⟩,
    fun _ hs => execRet_of_nil hs⟩

/-- Settles O20: JP is a jump. -/
theorem jumpGoesToTarget : Obligations.JumpGoesToTarget :=
  fun nnn s => ⟨rfl, _, rfl, rfl, unchangedExcept_jump s (addrOf nnn)⟩

/-- Settles O21: the room on the stack decides CALL's outcome, a push and a jump or the fault. -/
theorem callPushesTheNextAddress : Obligations.CallPushesTheNextAddress :=
  fun nnn s => ⟨rfl, fun hroom => ⟨_, execCall_of_lt nnn hroom, rfl, rfl, unchangedExcept_withStack_jump s _ _⟩,
    fun hfull => execCall_of_le nnn hfull.ge⟩

/-- Settles O22: RET finds the entry that CALL pushed on top; popping it gives the caller's stack back, so the two together
are a jump to PC + 2. -/
theorem callThenReturn : Obligations.CallThenReturn :=
  fun nnn s hroom =>
    ⟨_, _, execCall_of_lt nnn hroom, execRet_of_cons rfl, rfl, unchangedExcept_jump s (s.pc + 2)⟩

/-- Settles O23: each is a skip, on the test of Vx against the immediate. -/
theorem immediateSkips : Obligations.ImmediateSkips :=
  fun _ _ _ => ⟨⟨rfl, exec_skip rfl beq_iff_eq⟩, ⟨rfl, exec_skip rfl bne_iff_ne⟩⟩

/-- Settles O24: each is a skip, on the test of Vx against Vy; with another low nibble the word stands in the list of R55,
under op 5 or op 9. -/
theorem registerSkips : Obligations.RegisterSkips := by
  intro x y s
  refine ⟨⟨rfl, fun n hn => ⟨_, rfl, ?illegal5⟩, exec_skip rfl beq_iff_eq⟩,
    ⟨rfl, fun n hn => ⟨_, rfl, ?illegal9⟩, exec_skip rfl bne_iff_ne⟩⟩
  case illegal5 =>
    exact (illegalWordsAreTheListed (wordXYN 0x5000 x y n)).2
      (.inr (.inl ⟨opField_wordXYN .., nField_wordXYN_ne_zero rfl x y hn⟩))
  case illegal9 =>
    exact (illegalWordsAreTheListed (wordXYN 0x9000 x y n)).2
      (.inr (.inr (.inr (.inl ⟨opField_wordXYN .., nField_wordXYN_ne_zero rfl x y hn⟩))))

/-- Settles O25: JP V0 is a jump, and its target is the exact sum. -/
theorem indexedJumpAddsV0 : Obligations.IndexedJumpAddsV0 :=
  fun nnn s => ⟨rfl, _, rfl, toNat_indexedTarget nnn (s.getV 0), unchangedExcept_jump s (indexedTarget nnn (s.getV 0))⟩

end Sys2Proof.Machine
end

section
/-! PROOFS. Register arithmetic and logic (spec/41_alu.md): the instructions that write one register (R73-R78, R84), and
those that write a result and then a flag (R79-R83). -/

namespace Sys2Proof.Machine

/-! ### The frame of an instruction -/

/-- The frame of an instruction's outcome: the pieces of state are kept by `exec_keeps`, so only the registers are left to
say. -/
theorem unchangedExcept_of_exec {i : Instr} {s t : State} {regs : List Reg} {parts : List Component}
    (h : exec i s = .next t) (hparts : instrWrites i ⊆ parts) (hregs : ∀ r, r ∉ regs → t.getV r = s.getV r) :
    UnchangedExcept regs parts s t :=
  ⟨hregs, fun _ hc => exec_keeps h fun hw => hc (hparts hw)⟩

/-- An instruction whose only outcome is a byte written to Vx and the advance of PC changes nothing else: VF only where it
is Vx. -/
theorem exec_setV {i : Instr} {s : State} {x : Reg} {b : Byte} (h : exec i s = .next (s.setV x b).advance)
    (hw : instrWrites i = [.pc]) :
    ∃ t, exec i s = .next t ∧ t.getV x = b ∧ t.pc = s.pc + 2 ∧ UnchangedExcept [x] [.pc] s t := by
  refine ⟨_, h, ?value, rfl, unchangedExcept_of_exec h (hw ▸ List.Subset.refl _) fun r hr => ?other⟩
  case value => rw [State.advance_getV, State.getV_setV, if_pos rfl]
  case other => rw [State.advance_getV, State.getV_setV, if_neg (List.ne_of_not_mem_cons hr)]

/-- An instruction whose only outcome is the pair `r`, result to Vx and then flag to VF, and the advance of PC (R72): VF ends
as the flag `f`, and Vx, where it is not VF, as the result `n`; nothing else changes. -/
theorem exec_setResultThenFlag {i : Instr} {s : State} {x : Reg} {r : Byte × Bool} {n : Nat} {f : Byte}
    (h : exec i s = .next (s.setResultThenFlag x r).advance) (hw : instrWrites i = [.pc]) (hn : r.1.toNat = n)
    (hf : flagByte r.2 = f) :
    ∃ t, exec i s = .next t ∧ (x ≠ regF → (t.getV x).toNat = n) ∧ t.getV regF = f ∧ t.pc = s.pc + 2 ∧
      UnchangedExcept [x, regF] [.pc] s t := by
  refine ⟨_, h, fun hx => ?result, ?flag, rfl, unchangedExcept_of_exec h (hw ▸ List.Subset.refl _) fun q hq => ?other⟩
  case result => rw [State.advance_getV, State.getV_setResultThenFlag, if_neg hx, if_pos rfl, hn]
  case flag => rw [State.advance_getV, State.getV_setResultThenFlag, if_pos rfl, hf]
  case other =>
    obtain ⟨hqx, hqF⟩ : q ≠ x ∧ q ≠ regF := by simpa using hq
    rw [State.advance_getV, State.getV_setResultThenFlag, if_neg hqF, if_neg hqx]

/-! ### What the flag computations give -/

@[simp] theorem toNat_wrap8 (n : Nat) : (wrap8 n).toNat = n % 256 := BitVec.toNat_ofNat n 8

/-- A tested condition as the byte VF receives (R79). -/
theorem flagByte_decide (p : Prop) [Decidable p] : flagByte (decide p) = if p then 1 else 0 := by
  simp only [flagByte, decide_eq_true_eq]

theorem toNat_flagByte (c : Bool) : (flagByte c).toNat = c.toNat := by
  cases c <;> rfl

/-- A bit of a byte, as the byte VF receives, is a binary digit of its value (R81, R83). -/
theorem toNat_flagByte_getLsbD (b : Byte) (k : Nat) : (flagByte (b.getLsbD k)).toNat = b.toNat / 2 ^ k % 2 := by
  rw [toNat_flagByte, BitVec.getLsbD, Nat.toNat_testBit]

/-- SHR halves the value (R81). -/
theorem toNat_shrFlag (b : Byte) : (shrFlag b).1.toNat = b.toNat / 2 :=
  BitVec.toNat_ushiftRight b 1

/-- SHL doubles the value, modulo 256 (R83). -/
theorem toNat_shlFlag (b : Byte) : (shlFlag b).1.toNat = 2 * b.toNat % 256 := by
  rw [shlFlag, BitVec.toNat_shiftLeft, Nat.shiftLeft_eq, Nat.mul_comm]

/-- SHR shifts out bit 0 (R81). -/
theorem toNat_flagByte_shrFlag (b : Byte) : (flagByte (shrFlag b).2).toNat = b.toNat % 2 := by
  rw [shrFlag, toNat_flagByte_getLsbD, pow_zero, Nat.div_one]

/-- SHL shifts out bit 7, the top bit of a byte (R83). -/
theorem toNat_flagByte_shlFlag (b : Byte) : (flagByte (shlFlag b).2).toNat = b.toNat / 128 := by
  have hb : b.toNat < 256 := b.isLt
  rw [shlFlag, toNat_flagByte_getLsbD]
  omega

/-! ### The statements -/

/-- Settles O27: one register write, of the immediate. -/
theorem loadImmediate : Obligations.LoadImmediate :=
  fun _ _ _ => ⟨rfl, exec_setV rfl rfl⟩

/-- Settles O28: one register write, of the sum narrowed to 8 bits. -/
theorem addImmediateWithoutCarry : Obligations.AddImmediateWithoutCarry := by
  intro x nn s
  obtain ⟨t, ht, hx, hpc, hframe⟩ := exec_setV (i := .addImm x nn) (s := s) rfl rfl
  exact ⟨rfl, t, ht, by rw [hx, toNat_wrap8], hpc, hframe⟩

/-- Settles O29: each is one register write. -/
theorem copyAndLogic : Obligations.CopyAndLogic :=
  fun _ _ _ => ⟨⟨rfl, exec_setV rfl rfl⟩, ⟨rfl, exec_setV rfl rfl⟩, ⟨rfl, exec_setV rfl rfl⟩, ⟨rfl, exec_setV rfl rfl⟩⟩

/-- Settles O30: the sum is narrowed to 8 bits, and the flag is the test of the exact sum. -/
theorem addSetsCarry : Obligations.AddSetsCarry :=
  fun _ _ _ => ⟨rfl, exec_setResultThenFlag rfl rfl (toNat_wrap8 _) (flagByte_decide _)⟩

/-- Settles O31: SUBN is SUB's computation on the operands exchanged. -/
theorem subtractionsSetNoBorrow : Obligations.SubtractionsSetNoBorrow :=
  fun _ _ _ => ⟨⟨rfl, exec_setResultThenFlag rfl rfl (toNat_wrap8 _) (flagByte_decide _)⟩,
    ⟨rfl, exec_setResultThenFlag rfl rfl (toNat_wrap8 _) (flagByte_decide _)⟩⟩

/-- Settles O32: both results are computed from Vy alone, and the flag is the digit of Vy that the result loses. -/
theorem shiftsFromVy : Obligations.ShiftsFromVy := by
  intro x y s
  refine ⟨⟨rfl, ?shr⟩, ⟨rfl, ?shl⟩⟩
  case shr =>
    obtain ⟨t, ht, hx, hF, hpc, hframe⟩ := exec_setResultThenFlag (i := .shrReg x y) rfl rfl (toNat_shrFlag (s.getV y)) rfl
    exact ⟨t, ht, hx, by rw [hF, toNat_flagByte_shrFlag], hpc, hframe⟩
  case shl =>
    obtain ⟨t, ht, hx, hF, hpc, hframe⟩ := exec_setResultThenFlag (i := .shlReg x y) rfl rfl (toNat_shlFlag (s.getV y)) rfl
    exact ⟨t, ht, hx, by rw [hF, toNat_flagByte_shlFlag], hpc, hframe⟩

/-- Settles O33: the register write is over the state that has taken its draw, whose registers are those of `s`. -/
theorem randomIsMaskedDraw : Obligations.RandomIsMaskedDraw := by
  intro x nn s
  refine ⟨rfl, _, rfl, ?value, rfl, rfl, unchangedExcept_of_exec (i := .rnd x nn) rfl ?parts fun r hr => ?other⟩
  case value => rw [rndWith, State.advance_getV, State.getV_setV, if_pos rfl]
  case parts => exact (List.Perm.swap Component.pc Component.draws []).subset
  case other =>
    rw [rndWith, State.advance_getV, State.getV_setV, if_neg (List.ne_of_not_mem_cons hr)]
    exact State.getV_congr rfl r

end Sys2Proof.Machine
end

section
/-! PROOFS. The index register and memory block transfers (spec/42_index_memory.md): the instructions that write I (R86-R88),
the stores at I (R89, R90) and the load from I (R91), each access with the condition of each of its outcomes. -/

namespace Sys2Proof.Machine

/-! ### The operands -/

@[simp] theorem toNat_lowNibble (b : Byte) : (lowNibble b).toNat = b.toNat % 16 := BitVec.toNat_setWidth 4 b

/-- A sum masked to 12 bits is never cut again by the 16 bits that hold it. -/
@[simp] theorem toNat_mask12 (n : Nat) : (mask12 n).toNat = n % 4096 := by
  rw [mask12, BitVec.toNat_ofNat]
  omega

/-- The glyphs end far below 0x10000, so the address of one is exact (R88). -/
theorem toNat_glyphAddress (b : Byte) : (glyphAddress b).toNat = 0x050 + 5 * (b.toNat % 16) := by
  rw [glyphAddress, BitVec.toNat_ofNat, toNat_lowNibble, Config.fontBase]
  omega

/-! ### Writing I -/

/-- An instruction whose only outcome is an address written to I and the advance of PC changes nothing else. -/
theorem exec_setIndex {i : Instr} {s : State} {a : Word} (h : exec i s = .next (State.advance { s with i := a }))
    (hw : instrWrites i = [.i, .pc]) :
    ∃ t, exec i s = .next t ∧ t.i = a ∧ t.pc = s.pc + 2 ∧ UnchangedExcept [] [.i, .pc] s t :=
  ⟨_, h, rfl, rfl, unchangedExcept_of_exec h (hw ▸ List.Subset.refl _) fun _ _ => rfl⟩

/-! ### The outcomes of an access, each by its condition -/

/-- An access that leaves memory faults on its range (R41). -/
theorem exec_of_not_insideMemory {i : Instr} {s : State} {len : Nat} (hlen : instrAccessLength i = some len)
    (hpos : 0 < len) (hout : ¬ s.insideMemory len) :
    exec i s = .next (s.latched .addressOutOfRange (some (encode i)) (some 0x1000) false) := by
  rw [State.insideMemory] at hout
  exact accessRangeFault.1 i s len hlen hpos (by omega)

/-- A store inside memory that meets the font faults on it. The lowest font address of a range that begins below the font is
the font's first, and of one that begins in the font the range's own first (R36). -/
theorem exec_of_meetsFont {i : Instr} {s : State} {len : Nat} (hstore : instrIsStore i = true)
    (hlen : instrAccessLength i = some len) (hinside : s.insideMemory len) (hfont : s.meetsFont len) :
    exec i s = .next (s.latched .addressOutOfRange (some (encode i))
      (some (if s.i.toNat < 0x050 then 0x050 else s.i)) true) := by
  obtain ⟨hpos, hlo, hhi⟩ := hfont
  split
  case isTrue hbelow =>
    exact fontStoreFault i s len 0x050 hstore hlen hinside (by omega) hhi le_rfl (by decide) (by omega)
  case isFalse hin =>
    have h := fontStoreFault i s len s.i.toNat hstore hlen hinside le_rfl (by omega) (by omega) hlo (by omega)
    rwa [BitVec.ofNat_toNat, BitVec.setWidth_eq] at h

/-- A store inside memory that misses the font passes both checks (R36, R41). -/
theorem storeBytes_of_insideMemory {w : Word} {bytes : List Byte} {s : State} {len : Nat} (hlen : bytes.length = len)
    (hinside : s.insideMemory len) (hfont : ¬ s.meetsFont len) :
    storeBytes w bytes s = .next (s.writeBytes s.i.toNat bytes).advance := by
  subst hlen
  exact storeBytes_of_clear (State.rangeFaults_of_insideMemory hinside) (fontHit_none_of_not_meetsFont hfont)

/-- Fx65 inside memory loads the `x + 1` bytes at I (R91). -/
theorem execLdVxMem_of_insideMemory {x : Reg} {s : State} (hinside : s.insideMemory (x.toNat + 1)) :
    exec (.ldVxMem x) s = .next (s.loadRegs (s.readBytes s.i.toNat (x.toNat + 1))).advance := by
  rw [exec, execLdVxMem, loadBytes_of_inside (State.rangeFaults_of_insideMemory hinside)]

/-- A store that goes through changes memory and PC alone: I and STATUS stay (R85). -/
theorem unchangedExcept_writeBytes_advance (s : State) (a : Nat) (bytes : List Byte) :
    UnchangedExcept [] [.mem, .pc] s (s.writeBytes a bytes).advance := by
  refine ⟨fun _ _ => rfl, fun c hc => ?_⟩
  obtain ⟨hmem, hpc⟩ : c ≠ .mem ∧ c ≠ .pc := by simpa using hc
  rw [Component.same_advance hpc, Component.same_writeBytes hmem]
  exact Component.same_rfl

/-! ### The bytes stored and the registers loaded -/

/-- The byte at distance `k` in a run of bytes stored (R38). -/
theorem State.readByte_writeBytes_add (s : State) (a : Nat) {bytes : List Byte} {k : Nat} (hk : k < bytes.length) :
    (s.writeBytes a bytes).readByte (a + k) = bytes[k] := by
  rw [State.readByte_writeBytes, if_pos (by omega), Nat.add_sub_cancel_left, List.getD_eq_getElem _ _ hk]

/-- Stored digits read as the hundreds, tens and ones: each is exact, because it fits a byte (R89). -/
theorem readByte_writeBytes_bcdDigits (s : State) (a : Nat) (b : Byte) :
    ((s.writeBytes a (bcdDigits b)).readByte a).toNat = b.toNat / 100 ∧
    ((s.writeBytes a (bcdDigits b)).readByte (a + 1)).toNat = b.toNat / 10 % 10 ∧
    ((s.writeBytes a (bcdDigits b)).readByte (a + 2)).toNat = b.toNat % 10 := by
  have hb : b.toNat < 256 := b.isLt
  have digit {k n : Nat} (hk : k < 3) (hn : (bcdDigits b)[k] = BitVec.ofNat 8 n) (hlt : n < 256) :
      ((s.writeBytes a (bcdDigits b)).readByte (a + k)).toNat = n := by
    rw [s.readByte_writeBytes_add a (bytes := bcdDigits b) hk, hn, BitVec.toNat_ofNat]
    exact Nat.mod_eq_of_lt hlt
  exact ⟨digit (k := 0) (by decide) rfl (by omega), digit (k := 1) (by decide) rfl (by omega),
    digit (k := 2) (by decide) rfl (by omega)⟩

/-- A register that a load from I reaches ends as the byte at its own distance from I (R91). -/
theorem State.getV_loadRegs_readBytes (s : State) {len : Nat} {k : Reg} (hk : k.toNat < len) :
    (s.loadRegs (s.readBytes s.i.toNat len)).getV k = s.readByte (s.i.toNat + k.toNat) := by
  have hlen : k.toNat < (s.readBytes s.i.toNat len).length := by rwa [State.length_readBytes]
  rw [State.getV_loadRegs, List.getD_eq_getElem _ _ hlen, State.getElem_readBytes]

/-- A register past the end of a load is as before (R91). -/
theorem State.getV_loadRegs_of_length_le {s : State} {bytes : List Byte} {k : Reg} (hk : bytes.length ≤ k.toNat) :
    (s.loadRegs bytes).getV k = s.getV k := by
  rw [State.getV_loadRegs, List.getD_eq_default _ _ hk]

/-! ### The statements -/

/-- Settles O34: one write of I. -/
theorem loadIndex : Obligations.LoadIndex :=
  fun _ _ => ⟨rfl, exec_setIndex rfl rfl⟩

/-- Settles O35: I is the masked sum, the flag is the test of the exact sum, and both read the state before. -/
theorem addIndexSetsOverflow : Obligations.AddIndexSetsOverflow := by
  intro x s
  refine ⟨rfl, _, rfl, toNat_mask12 _, ?flag, rfl, unchangedExcept_of_exec (i := .addI x) rfl (List.Subset.refl _)
    fun r hr => ?other⟩
  case flag => rw [State.advance_getV, State.getV_setV, if_pos rfl, indexAddFlag, flagByte_decide]
  case other =>
    rw [State.advance_getV, State.getV_setV, if_neg (List.ne_of_not_mem_cons hr)]
    exact State.getV_congr rfl r

/-- Settles O36: one write of I. The name `glyphAddress` is the model's own function. -/
theorem loadGlyphAddress : Obligations.GlyphAddress := by
  intro x s
  obtain ⟨t, ht, hi, hpc, hframe⟩ := exec_setIndex (i := .ldF x) (s := s) rfl rfl
  exact ⟨rfl, t, ht, by rw [hi, toNat_glyphAddress], hpc, hframe⟩

/-- Settles O37: the store goes through and puts the three digits at I; otherwise one of the two checks fails. -/
theorem storeDecimalDigits : Obligations.StoreDecimalDigits := by
  intro x s
  refine ⟨rfl, fun hinside hfont => ?_, exec_of_not_insideMemory rfl (by decide), exec_of_meetsFont rfl rfl⟩
  obtain ⟨hhundreds, htens, hones⟩ := readByte_writeBytes_bcdDigits s s.i.toNat (s.getV x)
  exact ⟨_, storeBytes_of_insideMemory (length_bcdDigits _) hinside hfont, hhundreds, htens, hones,
    fun a ha => by rw [State.advance_readByte, State.readByte_writeBytes_of_outside ha], rfl,
    unchangedExcept_writeBytes_advance ..⟩

/-- Settles O38: the store goes through and puts V0..Vx at I; otherwise one of the two checks fails. -/
theorem storeRegisters : Obligations.StoreRegisters := by
  intro x s
  refine ⟨rfl, fun hinside hfont => ?_, exec_of_not_insideMemory rfl (Nat.succ_pos _), exec_of_meetsFont rfl rfl⟩
  refine ⟨_, storeBytes_of_insideMemory (s.length_regsUpTo x) hinside hfont,
    fun k hk => ?stored, fun a ha => ?other, rfl, unchangedExcept_writeBytes_advance ..⟩
  case stored => rw [State.advance_readByte, readByte_writeBytes_regsUpTo s hk]
  case other => rw [State.advance_readByte, State.readByte_writeBytes_of_outside (by rwa [State.length_regsUpTo])]

/-- Settles O39: the load goes on with the `x + 1` bytes at I, which reach V0..Vx alone; otherwise the range check fails. -/
theorem loadRegisters : Obligations.LoadRegisters := by
  intro x s
  refine ⟨rfl, fun hinside => ?_, exec_of_not_insideMemory rfl (Nat.succ_pos _)⟩
  refine ⟨_, execLdVxMem_of_insideMemory hinside, fun k hk => ?loaded, fun k hk => ?other, ?pc, fun c hc => ?kept⟩
  case loaded => rw [State.advance_getV, State.getV_loadRegs_readBytes s (Nat.lt_succ_of_le hk)]
  case other => rw [State.advance_getV, State.getV_loadRegs_of_length_le ((s.length_readBytes _ _).trans_le hk)]
  case pc => rw [State.advance_pc, State.loadRegs_pc]
  case kept =>
    rw [Component.same_advance (List.ne_of_not_mem_cons hc), Component.same_loadRegs]
    exact Component.same_rfl

end Sys2Proof.Machine
end

section
/-! PROOFS. Framebuffer clear and sprite draw (spec/43_draw.md): what a draw does to the pixels and to VF (R93-R95), the
second draw at the same place (R94), and the only writers of the framebuffer (R96). -/

namespace Sys2Proof.Machine

/-! ### The outcome of DRW -/

/-- DRW with its range inside memory, or with no bytes to read, draws the `n` bytes at I (R41, R93). -/
theorem execDrw_of_insideMemory {n : Nibble} {s : State} (x y : Reg) (h : n = 0 ∨ s.insideMemory n.toNat) :
    exec (.drw x y n) s = .next (s.drawSprite x y (s.readBytes s.i.toNat n.toNat)).advance := by
  have hrange : s.rangeFaults n.toNat = false :=
    (s.rangeFaults_false_iff n.toNat).2 (h.imp_left fun hn => congrArg BitVec.toNat hn)
  rw [exec, execDrw, loadBytes_of_inside hrange]

/-- A draw changes VF, the framebuffer and PC alone: I, which addresses the sprite, stays (R93). -/
theorem unchangedExcept_drawSprite_advance (s : State) (x y : Reg) (bytes : List Byte) :
    UnchangedExcept [regF] [.fb, .pc] s (s.drawSprite x y bytes).advance := by
  refine ⟨fun r hr => ?_, fun c hc => ?_⟩
  · rw [State.advance_getV, State.getV_drawSprite, if_neg (List.ne_of_not_mem_cons hr)]
  · obtain ⟨hfb, hpc⟩ : c ≠ .fb ∧ c ≠ .pc := by simpa using hc
    rw [Component.same_advance hpc, Component.same_drawSprite hfb]
    exact Component.same_rfl

/-! ### The pixels and the collision -/

theorem flagByte_eq_one_iff (c : Bool) : flagByte c = 1 ↔ c = true := by
  cases c <;> decide

theorem flagByte_eq_zero_iff (c : Bool) : flagByte c = 0 ↔ ¬ c = true := by
  cases c <;> decide

/-- The sprite `bytes`, drawn with its origin in Vx and Vy, has a set bit on a set pixel (R94). -/
def State.collides (s : State) (x y : Reg) (bytes : List Byte) : Prop :=
  ∃ r c, r < 32 ∧ c < 64 ∧ pixel s.fb r c = true ∧ spriteBit bytes (s.originRow y) (s.originColumn x) r c = true

section
variable (s : State) (x y : Reg) (bytes : List Byte)

/-- A draw inverts exactly the pixels under the set bits of the sprite at its origin (R93, R95). -/
theorem State.pixel_drawSprite {r c : Nat} (hr : r < 32) (hc : c < 64) :
    pixel (s.drawSprite x y bytes).fb r c =
      (pixel s.fb r c ^^ spriteBit bytes (s.originRow y) (s.originColumn x) r c) := by
  rw [State.drawSprite_fb, pixel_drawRows _ _ _ _ hr hc]

/-- The collision that the drawing loops record (R93). -/
theorem State.drawRows_collision_iff :
    (drawRows (s.originColumn x) bytes (s.originRow y) (s.fb, false)).2 = true ↔ s.collides x y bytes := by
  rw [collision_drawRows, or_iff_right Bool.false_ne_true, State.collides]

/-- A sprite collides exactly when its draw turns a pixel from 1 to 0: a set pixel is turned off by a set bit alone (R94). -/
theorem State.collides_iff_turnsOff :
    s.collides x y bytes ↔
      ∃ r c, r < 32 ∧ c < 64 ∧ pixel s.fb r c = true ∧ pixel (s.drawSprite x y bytes).fb r c = false := by
  refine exists₂_congr fun r c => and_congr_right fun hr => and_congr_right fun hc => and_congr_right fun hset => ?_
  rw [State.pixel_drawSprite s x y bytes hr hc, hset, Bool.true_xor, Bool.not_eq_false']

/-- After a draw VF is 1 exactly on a collision (R93). -/
theorem State.getV_regF_drawSprite_eq_one_iff : (s.drawSprite x y bytes).getV regF = 1 ↔ s.collides x y bytes := by
  rw [State.getV_drawSprite, if_pos rfl, flagByte_eq_one_iff, State.drawRows_collision_iff]

/-- After a draw VF is 0 exactly without a collision (R93). -/
theorem State.getV_regF_drawSprite_eq_zero_iff : (s.drawSprite x y bytes).getV regF = 0 ↔ ¬ s.collides x y bytes := by
  rw [State.getV_drawSprite, if_pos rfl, flagByte_eq_zero_iff, State.drawRows_collision_iff]

/-! ### The same draw again -/

variable {x y} (hx : x ≠ regF) (hy : y ≠ regF)

include hx in
/-- A draw keeps the column of an origin that VF does not hold. -/
theorem State.originColumn_drawSprite : (s.drawSprite x y bytes).originColumn x = s.originColumn x := by
  rw [State.originColumn, State.getV_drawSprite, if_neg hx, State.originColumn]

include hy in
/-- A draw keeps the row of an origin that VF does not hold. -/
theorem State.originRow_drawSprite : (s.drawSprite x y bytes).originRow y = s.originRow y := by
  rw [State.originRow, State.getV_drawSprite, if_neg hy, State.originRow]

include hx hy

/-- The second draw of a sprite inverts the pixels that the first inverted, so both together keep each (R94). -/
theorem State.drawSprite_drawSprite_fb : ((s.drawSprite x y bytes).drawSprite x y bytes).fb = s.fb := by
  refine framebuffer_ext fun r c hr hc => ?_
  rw [State.pixel_drawSprite _ x y bytes hr hc, State.pixel_drawSprite s x y bytes hr hc,
    State.originRow_drawSprite s bytes hy, State.originColumn_drawSprite s bytes hx,
    Bool.xor_assoc, Bool.xor_self, Bool.xor_false]

/-- Drawn over clear pixels, a sprite collides with itself when drawn again exactly when it has a drawn pixel (R94). -/
theorem State.drawSprite_collides_iff
    (hclear : ∀ r c, r < 32 → c < 64 → spriteBit bytes (s.originRow y) (s.originColumn x) r c = true →
      pixel s.fb r c = false) :
    (s.drawSprite x y bytes).collides x y bytes ↔
      ∃ r c, r < 32 ∧ c < 64 ∧ spriteBit bytes (s.originRow y) (s.originColumn x) r c = true := by
  rw [State.collides, State.originRow_drawSprite s bytes hy, State.originColumn_drawSprite s bytes hx]
  refine exists₂_congr fun r c => and_congr_right fun hr => and_congr_right fun hc => and_iff_right_of_imp fun hbit => ?_
  rw [State.pixel_drawSprite s x y bytes hr hc, hclear r c hr hc hbit, hbit, Bool.false_xor]

end

/-! ### The statements -/

/-- Settles O44: the new framebuffer is the clear one. -/
theorem clearScreen : Obligations.ClearScreen :=
  ⟨rfl, fun _ => ⟨_, rfl, fun r c _ _ => pixel_clearFramebuffer r c, rfl,
    unchangedExcept_of_exec (i := .cls) rfl (List.Subset.refl _) fun _ _ => rfl⟩⟩

/-- Settles O45: the range decides DRW's outcome. A sprite drawn inverts the pixels under its set bits, and VF says whether
it met a set pixel, which is whether one was turned off. -/
theorem drawSprite : Obligations.DrawSprite := by
  intro x y n s
  refine ⟨rfl, fun hinside => ?drawn, fun hn => exec_of_not_insideMemory rfl ?pos⟩
  case drawn =>
    refine ⟨_, execDrw_of_insideMemory x y hinside, fun r c => s.pixel_drawSprite x y _, fun hoff => ?one, fun hoff => ?zero,
      rfl, unchangedExcept_drawSprite_advance s x y _⟩
    case one => rwa [State.advance_getV, State.getV_regF_drawSprite_eq_one_iff, State.collides_iff_turnsOff]
    case zero => rwa [State.advance_getV, State.getV_regF_drawSprite_eq_zero_iff, State.collides_iff_turnsOff]
  case pos => exact Nat.pos_of_ne_zero fun h => hn (BitVec.eq_of_toNat_eq h)

/-- Settles O46: the first draw keeps I, memory and the origin, so the second draws the same sprite at the same place. -/
theorem doubleDrawRestores : Obligations.DoubleDrawRestores := by
  intro x y n s hx hy hinside
  refine ⟨_, _, execDrw_of_insideMemory x y hinside, execDrw_of_insideMemory x y hinside,
    s.drawSprite_drawSprite_fb _ hx hy, fun hclear => ?_⟩
  exact (State.getV_regF_drawSprite_eq_one_iff ..).trans (s.drawSprite_collides_iff _ hx hy hclear)

/-- Settles O47: 00E0 and Dxyn are the two instructions that may write the framebuffer. -/
theorem onlyClearAndDrawWriteFramebuffer : Obligations.OnlyClearAndDrawWriteFramebuffer := by
  intro s t h hne
  rcases step_writer (c := .fb) h hne (by decide) with ⟨i, hr, -, hw⟩ | ⟨-, hw⟩ | ⟨_, -, hw⟩ | ⟨rom, hn, -⟩
  · cases i with
    | cls => exact .inr (.inl hr)
    | drw x y n => exact .inr (.inr ⟨x, y, n, hr⟩)
    | _ => simp [instrWrites] at hw
  · simp at hw
  · cases hw
  · exact .inl ⟨rom, hn⟩

end Sys2Proof.Machine
end

section
/-! PROOFS. Timers and keypad (spec/44_timer_keypad.md): the instructions on the timers (R97-R99), the skips on a key (R101,
R102), and the key wait, entered by Fx0A (R103) and polled by the steps that follow (R104). -/

namespace Sys2Proof.Machine

/-! ### The tested key -/

/-- The key that SKP and SKNP test is the one of Vx's low nibble (R100). -/
theorem State.keyPressed_testedKey (s : State) (x : Reg) :
    s.keyPressed (s.testedKey x) = s.keys.getLsbD ((s.getV x).toNat % 16) := by
  rw [State.keyPressed, State.testedKey, toNat_lowNibble]

/-! ### The key a poll completes on -/

/-- A key's bit in the mask of the new presses says that it is pressed now and was released when last observed. -/
theorem getLsbD_and_not_iff_pressedSince {keys base : Word} {k : Nat} (hk : k < 16) :
    (keys &&& ~~~base).getLsbD k = true ↔ pressedSince keys base k := by
  rw [BitVec.getLsbD_and, BitVec.getLsbD_not, decide_eq_true hk, Bool.true_and, Bool.and_eq_true, Bool.not_eq_true',
    pressedSince]

/-- A poll completes on `k` exactly when `k` is the lowest new press. -/
theorem newKey_eq_some_iff {keys base : Word} {k : Nat} :
    newKey keys base = some k ↔ k < 16 ∧ pressedSince keys base k ∧ ∀ j, j < k → ¬ pressedSince keys base j := by
  have hfree {j : Nat} (hj : j < 16) : (!(keys &&& ~~~base).getLsbD j) = true ↔ ¬ pressedSince keys base j := by
    rw [Bool.not_eq_true', ← Bool.not_eq_true, getLsbD_and_not_iff_pressedSince hj]
  rw [newKey, List.find?_range_eq_some, List.mem_range]
  constructor
  case mp =>
    rintro ⟨hp, hk, hlow⟩
    exact ⟨hk, (getLsbD_and_not_iff_pressedSince hk).1 hp, fun j hj => (hfree (hj.trans hk)).1 (hlow j hj)⟩
  case mpr =>
    rintro ⟨hk, hp, hlow⟩
    exact ⟨(getLsbD_and_not_iff_pressedSince hk).2 hp, hk, fun j hj => (hfree (hj.trans hk)).2 (hlow j hj)⟩

/-! ### The poll, each outcome by its condition -/

/-- A poll with a new press completes the wait on the lowest. -/
theorem keyWaitPoll_of_lowest {s : State} {base : Word} {k : Nat} (wx : Reg) (hk : k < 16)
    (hp : pressedSince s.keys base k) (hlow : ∀ j, j < k → ¬ pressedSince s.keys base j) :
    keyWaitPoll wx base s = State.advance { s.setV wx (BitVec.ofNat 8 k) with status := .running } := by
  rw [keyWaitPoll, newKey_eq_some_iff.2 ⟨hk, hp, hlow⟩]

/-- A poll without a new press remembers the keys as they are. -/
theorem keyWaitPoll_of_none {s : State} {base : Word} (wx : Reg) (h : ∀ k, k < 16 → ¬ pressedSince s.keys base k) :
    keyWaitPoll wx base s = { s with status := .waiting wx s.keys } := by
  rcases keyWaitPoll_cases wx base s with ⟨k, hsome, -⟩ | ⟨-, hpoll⟩
  · obtain ⟨hk, hp, -⟩ := newKey_eq_some_iff.1 hsome
    exact absurd hp (h k hk)
  · exact hpoll

/-- The registers once a poll has completed the wait: the key in the awaited one, and the others as they were. -/
theorem State.getV_setV_withStatus_advance (s : State) (wx : Reg) (b : Byte) (st : Status) (q : Reg) :
    (State.advance { s.setV wx b with status := st }).getV q = if q = wx then b else s.getV q :=
  (State.getV_congr rfl q).trans (s.getV_setV wx q b)

/-! ### The step of a waiting core -/

/-- The step of a waiting core is a poll (R59). -/
theorem step_of_waiting {s : State} {wx : Reg} {base : Word} (hn : s.nextTransaction = .step)
    (hs : s.status = .waiting wx base) : step s = .next (keyWaitPoll wx base s.takeTransaction) := by
  rw [step_of_next hn, transact, stepTransaction, State.takeTransaction_status, hs]

/-! ### The statements -/

/-- Settles O55: the condition decides the poll's outcome; a key's index is below 16, so the byte written holds it whole. -/
theorem keyWaitPolls : Obligations.KeyWaitPolls := by
  intro s wx base hn hs
  refine ⟨fun k hk hp hlow => ?pressed, fun hnone => ?none⟩
  case pressed =>
    have hpoll := keyWaitPoll_of_lowest (s := s.takeTransaction) wx hk hp hlow
    refine ⟨_, (step_of_waiting hn hs).trans (congrArg _ hpoll), ?value, rfl, rfl, rfl, fun r hr => ?registers,
      fun c hc => ?components⟩
    case value =>
      rw [State.getV_setV_withStatus_advance, if_pos rfl]
      exact (BitVec.toNat_ofNat k 8).trans (Nat.mod_eq_of_lt (by omega))
    case registers =>
      rw [State.getV_setV_withStatus_advance, if_neg (List.ne_of_not_mem_cons hr), State.takeTransaction_getV]
    case components =>
      obtain ⟨hpc, hstatus, hsched⟩ : c ≠ .pc ∧ c ≠ .status ∧ c ≠ .schedule := by simpa using hc
      exact (Component.takeTransaction_same hsched).1 (hpoll ▸ keyWaitPoll_keeps hpc hstatus wx base s.takeTransaction)
  case none =>
    have hpoll := keyWaitPoll_of_none (s := s.takeTransaction) wx hnone
    refine ⟨_, (step_of_waiting hn hs).trans (congrArg _ hpoll), rfl, rfl, fun _ _ => rfl, fun c hc => ?_⟩
    obtain ⟨hstatus, hsched⟩ : c ≠ .status ∧ c ≠ .schedule := by simpa using hc
    rw [Component.same_withStatus hstatus, Component.same_takeTransaction hsched]
    exact Component.same_rfl

/-- Settles O48: one register write, of DT. -/
theorem readDelayTimer : Obligations.ReadDelayTimer :=
  fun _ _ => ⟨rfl, exec_setV rfl rfl⟩

/-- Settles O49: each writes its timer and PC; `sound_on` is the test of ST, which holds Vx. -/
theorem setTimers : Obligations.SetTimers :=
  fun x _ =>
    ⟨⟨rfl, _, rfl, rfl, rfl, unchangedExcept_of_exec (i := .ldDTVx x) rfl (List.Subset.refl _) fun _ _ => rfl⟩,
      ⟨rfl, _, rfl, rfl, State.soundOn_iff _, rfl,
        unchangedExcept_of_exec (i := .ldSTVx x) rfl (List.Subset.refl _) fun _ _ => rfl⟩⟩

/-- Settles O53: each is a skip, on the test of the key of Vx's low nibble. -/
theorem keySkips : Obligations.KeySkips := by
  intro x s
  refine ⟨⟨rfl, exec_skip rfl ?pressed⟩, ⟨rfl, exec_skip rfl ?released⟩⟩
  case pressed => rw [State.keyPressed_testedKey]
  case released => rw [State.keyPressed_testedKey, Bool.not_eq_true']

/-- Settles O54: the one outcome writes STATUS alone, and the reply is read off it. -/
theorem keyWaitEnters : Obligations.KeyWaitEnters :=
  fun x _ => ⟨rfl, _, rfl, rfl, rfl, unchangedExcept_of_exec (i := .ldVxK x) rfl (List.Subset.refl _) fun _ _ => rfl⟩

end Sys2Proof.Machine
end

section
/-! PROOFS. Faults and ticks (spec/60_exceptions.md): a fault is precise (R106), a faulted core stays faulted until `init`
(R107), and the timers count down by ticks and change by nothing else but their writers and `init` (R113, R126). -/

namespace Sys2Proof.Machine

/-! ### Faults are precise (R106) -/

/-- An instruction that leaves STATUS Faulted where it was not has raised a fault with its own encoding, and done nothing
else: each outcome that is no `raise` keeps STATUS or makes it Waiting. -/
theorem exec_eq_raise_of_faulted {i : Instr} {s t : State} {f : FaultRecord} (h : exec i s = .next t)
    (hs : s.status.isFaulted = false) (hf : t.status = .faulted f) :
    ∃ kind faddr isProtected, t = s.raise kind (some (encode i)) faddr isProtected := by
  have kept {P : Prop} (hkeep : t.status = s.status) : P := by
    rw [← hkeep, hf] at hs; cases hs
  cases hlen : instrAccessLength i with
  | some len =>
    rcases exec_access_cases s hlen with ⟨-, he⟩ | ⟨-, -, q, -, he⟩ | ⟨-, -, u, he, hu, -⟩ <;> cases next_inj h he
    · exact ⟨_, _, _, rfl⟩
    · exact ⟨_, _, _, rfl⟩
    · exact kept hu
  | none =>
    cases i with
    | call nnn =>
      rcases execCall_cases nnn s with ⟨-, he⟩ | ⟨-, he⟩ <;> cases next_inj h he
      · exact ⟨_, _, _, rfl⟩
      · exact kept rfl
    | ret =>
      rcases execRet_cases s with ⟨-, he⟩ | ⟨_, _, -, he⟩ <;> cases next_inj h he
      · exact ⟨_, _, _, rfl⟩
      · exact kept rfl
    | ldVxK x => cases h; cases hf
    | drw | ldB | ldMemVx | ldVxMem => cases hlen
    | _ => cases h; exact kept rfl

/-- A poll of the keypad raises no fault (R104). -/
theorem keyWaitPoll_not_faulted (wx : Reg) (base : Word) (s : State) :
    (keyWaitPoll wx base s).status.isFaulted = false := by
  rcases keyWaitPoll_cases wx base s with ⟨_, -, h⟩ | ⟨-, h⟩ <;> rw [h] <;> rfl

/-- A core step that leaves STATUS Faulted where it was not has raised a fault and done nothing else. The fault records the
fetched word, and none when the fetch itself faulted (R40, R55, R106). -/
theorem stepTransaction_eq_raise_of_faulted {s t : State} {f : FaultRecord} (h : stepTransaction s = .next t)
    (hs : s.status.isFaulted = false) (hf : t.status = .faulted f) :
    ∃ kind faddr isProtected,
      t = s.raise kind (if s.pc.toNat ≤ 0xFFE then some s.fetchWord else none) faddr isProtected := by
  rcases stepTransaction_cases h with
    ⟨_, hs', -⟩ | ⟨wx, b, -, rfl⟩ | ⟨-, hout, rfl⟩ | ⟨-, hin, -, rfl⟩ | ⟨-, hin, i, hd, he⟩
  · rw [hs'] at hs; cases hs
  · have hpoll := keyWaitPoll_not_faulted wx b s
    rw [hf] at hpoll; cases hpoll
  · rw [if_neg (mt (State.fetchInside_iff s).2 (Bool.not_eq_true _ ▸ hout))]
    exact ⟨_, _, _, rfl⟩
  · rw [if_pos ((State.fetchInside_iff s).1 hin)]
    exact ⟨_, _, _, rfl⟩
  · rw [if_pos ((State.fetchInside_iff s).1 hin), ← encode_of_decode hd]
    exact exec_eq_raise_of_faulted he hs hf

/-- Settles O10: the step has done nothing but raise its fault, whose record is read off `State.raise`. -/
theorem faultsArePrecise : Obligations.FaultsArePrecise := by
  intro s t f hn hs h hf
  rw [step_of_next hn] at h
  obtain ⟨kind, faddr, isProtected, rfl⟩ := stepTransaction_eq_raise_of_faulted h hs hf
  cases hf
  exact ⟨rfl, rfl, rfl, rfl⟩

/-! ### The faulted core (R107) -/

/-- The step of a faulted core changes nothing but the order of transactions. -/
theorem step_of_faulted {s : State} {f : FaultRecord} (hn : s.nextTransaction = .step) (hs : s.status = .faulted f) :
    step s = .next s.takeTransaction := by
  rw [step_of_next hn, transact, stepTransaction, State.takeTransaction_status, hs]

/-- Every transaction but `init` leaves a faulted core's STATUS as it is. -/
theorem step_keeps_faulted {s t : State} {f : FaultRecord} (hs : s.status = .faulted f)
    (hinit : ∀ rom, s.nextTransaction ≠ .init rom) (h : step s = .next t) : t.status = .faulted f := by
  rcases step_cases h with ⟨hn, -⟩ | ⟨-, rfl⟩ | ⟨k, -, rfl⟩ | ⟨rom, hn, -⟩ | ⟨rom, hn, -⟩
  · cases next_inj h (step_of_faulted hn hs)
    exact hs
  · exact hs
  · exact hs
  · exact absurd hn (hinit rom)
  · exact absurd hn (hinit rom)

/-- Settles O12: a step leaves the core alone and its reply is read off STATUS; ticks and key updates do not look at STATUS;
and a normal end is Running. -/
theorem faultedCoreStaysFaulted : Obligations.FaultedCoreStaysFaulted := by
  intro s f hs
  refine ⟨fun hn => ⟨step_of_faulted hn hs, ?reply⟩, fun hn => step_of_next hn, fun k hn => step_of_next hn,
    fun t hinit h => step_keeps_faulted hs hinit h, fun ⟨hrun, _⟩ => ?ended⟩
  case reply => rw [Transaction.reply, State.takeTransaction_status, hs, Status.stepReply]
  case ended => cases hs.symm.trans hrun

/-! ### Ticks (R113) -/

/-- A timer's count down is the truncated subtraction of 1: no byte below 1 is decremented, so none wraps. -/
@[simp] theorem toNat_countDown (b : Byte) : (countDown b).toNat = b.toNat - 1 := by
  unfold countDown
  split
  · bv_omega
  · omega

/-- Settles O50: the step is `State.tick`, which writes the two timers alone. -/
theorem tickCountsDown : Obligations.TickCountsDown := by
  intro s hn
  refine ⟨s.takeTransaction.tick, step_of_next hn, toNat_countDown s.dt, toNat_countDown s.st, fun _ _ => rfl,
    fun c hc => ?_⟩
  obtain ⟨hdt, hst, hsched⟩ : c ≠ .dt ∧ c ≠ .st ∧ c ≠ .schedule := by simpa using hc
  rw [Component.same_tick hdt hst, Component.same_takeTransaction hsched]
  exact Component.same_rfl

/-- Settles O51, by induction on the number of ticks: one more tick takes one more from each timer. -/
theorem manyTicksSaturateAtZero : Obligations.ManyTicksSaturateAtZero := by
  intro k s
  induction k with
  | zero => exact ⟨rfl, rfl⟩
  | succ k ih =>
    obtain ⟨hdt, hst⟩ := ih
    rw [Function.iterate_succ_apply', State.tick_dt, State.tick_st, toNat_countDown, toNat_countDown, hdt, hst]
    exact ⟨Nat.sub_sub .., Nat.sub_sub ..⟩

/-! ### The only writers of the timers (R126) -/

/-- Fx15 alone may write DT (R98). -/
theorem eq_ldDTVx_of_dt_mem_instrWrites {i : Instr} (h : Component.dt ∈ instrWrites i) : ∃ x, i = .ldDTVx x := by
  cases i with
  | ldDTVx x => exact ⟨x, rfl⟩
  | _ => simp [instrWrites] at h

/-- Fx18 alone may write ST (R99). -/
theorem eq_ldSTVx_of_st_mem_instrWrites {i : Instr} (h : Component.st ∈ instrWrites i) : ∃ x, i = .ldSTVx x := by
  cases i with
  | ldSTVx x => exact ⟨x, rfl⟩
  | _ => simp [instrWrites] at h

/-- A step that changes a timer was an `init` or a tick, or ran an instruction that may write that timer. -/
theorem step_timer_writer {s t : State} {c : Component} (h : step s = .next t) (hne : ¬ c.same s t)
    (hc : c = .dt ∨ c = .st) :
    (∃ rom, s.nextTransaction = .init rom) ∨ s.nextTransaction = .tick ∨ ∃ i, s.runs i ∧ c ∈ instrWrites i := by
  have hother : c ∉ [.pc, .status, .schedule] := by rcases hc with rfl | rfl <;> decide
  rcases step_writer h hne hother with ⟨i, hr, -, hw⟩ | ⟨hn, -⟩ | ⟨_, -, rfl⟩ | ⟨rom, hn, -⟩
  · exact .inr (.inr ⟨i, hr, hw⟩)
  · exact .inr (.inl hn)
  · simp at hc
  · exact .inl ⟨rom, hn⟩

/-- Settles O52: each timer has one instruction that may write it, and a count down is at most the count. -/
theorem onlyTimerWritersChangeTimers : Obligations.OnlyTimerWritersChangeTimers := by
  intro s t h
  refine ⟨fun hne => ?dt, fun hne => ?st, fun hn => ?tick⟩
  case dt =>
    refine (step_timer_writer (c := .dt) h hne (.inl rfl)).imp_right (Or.imp_right ?_)
    rintro ⟨i, hr, hw⟩
    obtain ⟨x, rfl⟩ := eq_ldDTVx_of_dt_mem_instrWrites hw
    exact ⟨x, hr⟩
  case st =>
    refine (step_timer_writer (c := .st) h hne (.inr rfl)).imp_right (Or.imp_right ?_)
    rintro ⟨i, hr, hw⟩
    obtain ⟨x, rfl⟩ := eq_ldSTVx_of_st_mem_instrWrites hw
    exact ⟨x, hr⟩
  case tick =>
    cases next_inj h (step_of_next hn)
    exact ⟨(toNat_countDown s.dt).trans_le (Nat.sub_le ..), (toNat_countDown s.st).trans_le (Nat.sub_le ..)⟩

end Sys2Proof.Machine
end

section
/-! PROOFS. Reset and hazards (spec/70_reset_and_hazards.md): every transaction keeps the invariant (R126), and a normal end
is a fixed point of the step (R125). -/

namespace Sys2Proof.Machine

/-! ### Bounds on the addresses that PC and I receive -/

/-- An `nnn` field is an address inside memory (R52). -/
theorem toNat_addrOf_le (nnn : Addr12) : (addrOf nnn).toNat ≤ 0xFFF := by
  have hnnn : nnn.toNat < 4096 := nnn.isLt
  rw [addrOf, BitVec.toNat_setWidth_of_le (by decide)]
  omega

/-- A skip leaves PC at most 4 further (R60). -/
theorem State.skipIf_pc_le (s : State) (b : Bool) : (s.skipIf b).pc.toNat ≤ s.pc.toNat + 4 := by
  rw [State.skipIf_pc]
  split <;> bv_omega

/-! ### What an instruction keeps of the invariant -/

section
variable {i : Instr} {s t : State}

/-- The three ways an instruction leaves STATUS: as it was; or Faulted, with nothing else changed; or, being Fx0A, Waiting,
with nothing else changed (R103, R106). -/
theorem exec_status_cases (h : exec i s = .next t) :
    t.status = s.status ∨ (∃ f, t = { s with status := .faulted f }) ∨
      ∃ x, i = .ldVxK x ∧ t = { s with status := .waiting x s.keys } := by
  cases hlen : instrAccessLength i with
  | some len =>
    rcases exec_access_cases s hlen with ⟨-, he⟩ | ⟨-, -, q, -, he⟩ | ⟨-, -, u, he, hu, -⟩ <;> cases next_inj h he
    · exact .inr (.inl ⟨_, rfl⟩)
    · exact .inr (.inl ⟨_, rfl⟩)
    · exact .inl hu
  | none =>
    cases i with
    | call nnn =>
      rcases execCall_cases nnn s with ⟨-, he⟩ | ⟨-, he⟩ <;> cases next_inj h he
      · exact .inr (.inl ⟨_, rfl⟩)
      · exact .inl rfl
    | ret =>
      rcases execRet_cases s with ⟨-, he⟩ | ⟨_, _, -, he⟩ <;> cases next_inj h he
      · exact .inr (.inl ⟨_, rfl⟩)
      · exact .inl rfl
    | ldVxK x => cases h; exact .inr (.inr ⟨x, rfl, rfl⟩)
    | drw | ldB | ldMemVx | ldVxMem => cases hlen
    | _ => cases h; exact .inl rfl

/-- An instruction's outcome has the parameters of the state before (R8). -/
theorem exec_params (h : exec i s = .next t) : t.params = s.params := by
  obtain ⟨u, hu, hparams⟩ := exec_completes_keeping_params i s
  cases next_inj h hu
  exact hparams

/-- I stays inside memory: of its three writers Annn takes an address field, Fx1E masks, and Fx29 points into the font
(R86-R88). -/
theorem exec_index_inside (h : exec i s = .next t) (hi : s.i.toNat ≤ 0xFFF) : t.i.toNat ≤ 0xFFF := by
  cases i with
  | ldI nnn => cases h; exact toNat_addrOf_le nnn
  | addI x =>
    cases h
    have hmask : (indexAddFlag s.i (s.getV x)).1.toNat = (s.i.toNat + (s.getV x).toNat) % 4096 := toNat_mask12 _
    simp only [State.advance_i, State.setV_i, hmask]
    omega
  | ldF x =>
    cases h
    simp only [State.advance_i, toNat_glyphAddress]
    omega
  | _ =>
    have hsame : t.i = s.i := exec_keeps (c := .i) h (by simp [instrWrites])
    rwa [hsame]

/-- The stack's bound: 2nnn alone pushes, where there is room (R65). -/
theorem exec_stack_fits (h : exec i s = .next t) (hfit : s.stack.length ≤ s.params.stackDepth) :
    t.stack.length ≤ t.params.stackDepth := by
  cases i with
  | call nnn =>
    rcases execCall_cases nnn s with ⟨-, he⟩ | ⟨hroom, he⟩ <;> cases next_inj h he
    · exact hfit
    · exact hroom
  | ret =>
    rcases execRet_cases s with ⟨-, he⟩ | ⟨a, rest, hs, he⟩ <;> cases next_inj h he
    · exact hfit
    · rw [hs] at hfit
      exact Nat.le_of_succ_le hfit
  | _ =>
    have hstack : t.stack = s.stack := exec_keeps (c := .stack) h (by simp [instrWrites])
    rwa [hstack, exec_params h]

/-- The return addresses' bound: 2nnn pushes the address after an instruction that was fetched (R65). -/
theorem exec_returns_inside (h : exec i s = .next t) (hpc : s.pc.toNat ≤ 0xFFE)
    (hret : ∀ a ∈ s.stack, a.toNat ≤ 0x1000) : ∀ a ∈ t.stack, a.toNat ≤ 0x1000 := by
  cases i with
  | call nnn =>
    rcases execCall_cases nnn s with ⟨-, he⟩ | ⟨-, he⟩ <;> cases next_inj h he
    · exact hret
    · exact List.forall_mem_cons.2 ⟨by bv_omega, hret⟩
  | ret =>
    rcases execRet_cases s with ⟨-, he⟩ | ⟨a, rest, hs, he⟩ <;> cases next_inj h he
    · exact hret
    · exact (List.forall_mem_cons.1 (hs ▸ hret)).2
  | _ =>
    have hsame : t.stack = s.stack := exec_keeps (c := .stack) h (by simp [instrWrites])
    rwa [hsame]

/-- PC after an instruction that was fetched and leaves the core Running: at most 2 or 4 past it, or a target, the furthest
being that of Bnnn, 0xFFF + 0xFF (R60, R70). -/
theorem exec_pc_bounded (h : exec i s = .next t) (hs : s.status = .running) (ht : t.status = .running)
    (hpc : s.pc.toNat ≤ 0xFFE) (hret : ∀ a ∈ s.stack, a.toNat ≤ 0x1000) : t.pc.toNat ≤ 0x10FE := by
  cases hnext : instrSetsNext i with
  | false =>
    rw [straightLineAdvance i s t hnext hs h ht]
    bv_omega
  | true =>
    cases i with
    | jp nnn => cases h; exact (toNat_addrOf_le nnn).trans (by decide)
    | jpV0 nnn =>
      cases h
      have hnnn : nnn.toNat < 4096 := nnn.isLt
      have hv0 : (s.getV reg0).toNat < 256 := (s.getV reg0).isLt
      rw [State.jump_pc, toNat_indexedTarget]
      omega
    | call nnn =>
      rcases execCall_cases nnn s with ⟨-, he⟩ | ⟨-, he⟩ <;> cases next_inj h he
      · cases ht
      · exact (toNat_addrOf_le nnn).trans (by decide)
    | ret =>
      rcases execRet_cases s with ⟨-, he⟩ | ⟨a, rest, hstack, he⟩ <;> cases next_inj h he
      · cases ht
      · exact (hret a (hstack ▸ List.mem_cons_self)).trans (by decide)
    | seImm | sneImm | seReg | sneReg | skp | sknp =>
      cases h
      exact (s.skipIf_pc_le _).trans (by omega)
    | ldVxK x => cases h; cases ht
    | _ => cases hnext

/-- Memory stays canonical: the two stores alone write it, and one that passes the range check inside memory (R35, R41). -/
theorem exec_mem_wf (h : exec i s = .next t) (hwf : Memory.wf s.params.font s.mem = true) :
    Memory.wf t.params.font t.mem = true := by
  cases i with
  | ldB x =>
    rcases execLdB_cases x s with ⟨-, he⟩ | ⟨-, _, -, he⟩ | ⟨hr, -, he⟩ <;> cases next_inj h he
    · exact hwf
    · exact hwf
    · have hinside := ((s.rangeFaults_false_iff 3).1 hr).resolve_left (by decide)
      exact Memory.wf_writeBytes hinside hwf
  | ldMemVx x =>
    rcases execLdMemVx_cases x s with ⟨-, he⟩ | ⟨-, _, -, he⟩ | ⟨hr, -, he⟩ <;> cases next_inj h he
    · exact hwf
    · exact hwf
    · have hinside := ((s.rangeFaults_false_iff _).1 hr).resolve_left (Nat.succ_ne_zero _)
      exact Memory.wf_writeBytes (by rwa [State.length_regsUpTo]) hwf
  | ret => rcases execRet_cases s with ⟨-, he⟩ | ⟨_, _, -, he⟩ <;> cases next_inj h he <;> exact hwf
  | call nnn => rcases execCall_cases nnn s with ⟨-, he⟩ | ⟨-, he⟩ <;> cases next_inj h he <;> exact hwf
  | drw x y n => rcases execDrw_cases x y n s with ⟨-, he⟩ | ⟨-, he⟩ <;> cases next_inj h he <;> exact hwf
  | ldVxMem x => rcases execLdVxMem_cases x s with ⟨-, he⟩ | ⟨-, he⟩ <;> cases next_inj h he <;> exact hwf
  | _ => cases h; exact hwf

/-- Running an instruction keeps the font: a byte that a store changes lies outside it (R36). -/
theorem readByte_font_of_runs (hr : s.runs i) (h : step s = .next t) {k : Nat} (hk : k < Config.fontSize) :
    t.readByte (Config.fontBase + k) = s.readByte (Config.fontBase + k) := by
  obtain ⟨hn, -⟩ := hr
  by_contra hne
  rcases onlyStoresWriteMemory s t _ h hne with ⟨rom, hinit⟩ | ⟨_, _, -, -, -, -, -, hout⟩
  · cases hn.symm.trans hinit
  · simp only [Config.fontBase, Config.fontSize] at hk hout
    omega

end

/-! ### The invariant, transaction by transaction -/

/-- A change that writes, of what the invariant speaks of, STATUS alone keeps it, provided that a core left Waiting stands at
its Fx0A. -/
theorem State.Inv.of_kept {s t : State} (hinv : s.Inv) (hmem : t.mem = s.mem) (hi : t.i = s.i) (hpc : t.pc = s.pc)
    (hstack : t.stack = s.stack) (hparams : t.params = s.params)
    (hwait : ∀ wx b, t.status = .waiting wx b → s.pc.toNat ≤ 0xFFE ∧ s.fetchWord = encode (.ldVxK wx)) : t.Inv where
  index_inside := hi ▸ hinv.index_inside
  stack_fits := by rw [hstack, hparams]; exact hinv.stack_fits
  returns_inside := hstack ▸ hinv.returns_inside
  font_intact k hk := by rw [State.readByte_congr hmem hparams, hparams]; exact hinv.font_intact k hk
  pc_bounded := hpc ▸ hinv.pc_bounded
  waits_at_key_wait wx b hs := by
    rw [State.fetchWord, State.readByte_congr hmem hparams, State.readByte_congr hmem hparams, hpc]
    exact hwait wx b hs
  mem_wf := by rw [hmem, hparams]; exact hinv.mem_wf

/-- Taking a transaction off the order keeps the invariant. -/
theorem State.Inv.takeTransaction {s : State} (hinv : s.Inv) : s.takeTransaction.Inv :=
  hinv.of_kept rfl rfl rfl rfl rfl hinv.waits_at_key_wait

/-- A fault latched in STATUS keeps the invariant (R106). -/
theorem State.Inv.withFault {s : State} (hinv : s.Inv) (f : FaultRecord) :
    State.Inv { s with status := .faulted f } :=
  hinv.of_kept rfl rfl rfl rfl rfl nofun

/-- A poll keeps the invariant: it leaves the core Waiting where it was, or Running after an Fx0A that was fetched
(R104). -/
theorem State.Inv.keyWaitPoll {s : State} {wx : Reg} {base : Word} (hinv : s.Inv) (hs : s.status = .waiting wx base) :
    (keyWaitPoll wx base s).Inv := by
  obtain ⟨hpc, hword⟩ := hinv.waits_at_key_wait wx base hs
  rcases keyWaitPoll_cases wx base s with ⟨k, -, h⟩ | ⟨-, h⟩ <;> rw [h]
  · exact { hinv with
      pc_bounded := by rw [State.advance_pc, State.setV_pc]; bv_omega
      waits_at_key_wait := nofun }
  · exact hinv.of_kept rfl rfl rfl rfl rfl fun _ _ hw => by cases hw; exact ⟨hpc, hword⟩

/-- Running an instruction keeps the invariant. A core that it leaves Faulted or Waiting has changed STATUS alone; one that
it leaves Running meets each property by that property's own lemma. -/
theorem State.Inv.of_runs {i : Instr} {s t : State} (hinv : s.Inv) (hr : s.runs i) (h : step s = .next t) : t.Inv := by
  have he : exec i s.takeTransaction = .next t := (step_of_runs hr).symm.trans h
  have ⟨_, hs, hpc, hd⟩ := hr
  rcases exec_status_cases he with hkept | ⟨f, rfl⟩ | ⟨x, rfl, rfl⟩
  · have ht : t.status = .running := hkept.trans hs
    exact {
      index_inside := exec_index_inside he hinv.index_inside
      stack_fits := exec_stack_fits he hinv.stack_fits
      returns_inside := exec_returns_inside he hpc hinv.returns_inside
      font_intact := fun k hk => by
        rw [readByte_font_of_runs hr h hk, exec_params he]
        exact hinv.font_intact k hk
      pc_bounded := exec_pc_bounded he hs ht hpc hinv.returns_inside
      waits_at_key_wait := fun _ _ hw => by cases ht.symm.trans hw
      mem_wf := exec_mem_wf he hinv.mem_wf }
  · exact hinv.takeTransaction.withFault f
  · exact hinv.of_kept rfl rfl rfl rfl rfl fun _ _ hw => by cases hw; exact ⟨hpc, (encode_of_decode hd).symm⟩

/-- An accepted `init` establishes the invariant: the ROM lies above the font and inside memory, and all else is as at reset
(R121). -/
theorem State.Inv.of_init {s t : State} {rom : List Byte} (hfit : romFits rom = true) (h : s.init rom = some t) :
    t.Inv := by
  have hlen := (romFits_iff rom).1 hfit
  have hread := State.readByte_init h
  obtain rfl := State.init_eq_some h
  exact {
    index_inside := resetMeetsTheInvariant.index_inside
    stack_fits := Nat.zero_le _
    returns_inside := resetMeetsTheInvariant.returns_inside
    font_intact := fun k hk => by
      have hk : k < 80 := hk
      rw [hread, Config.fontBase, if_neg (by omega)]
      exact initialByte_font _ hk
    pc_bounded := resetMeetsTheInvariant.pc_bounded
    waits_at_key_wait := nofun
    mem_wf := Memory.wf_writeBytes (by simp only [Config.programBase, Config.memSize]; omega) rfl }

/-- Settles O14: each transaction by its own lemma, a core step by its outcomes (R59). Neither a tick nor a key update
writes what the invariant speaks of. -/
theorem everyStepKeepsTheInvariant : Obligations.EveryStepKeepsTheInvariant := by
  intro s t hinv h
  have hinv' := hinv.takeTransaction
  rcases step_cases h with ⟨hn, hcore⟩ | ⟨-, rfl⟩ | ⟨k, -, rfl⟩ | ⟨rom, -, hfit, hinit⟩ | ⟨rom, -, -, rfl⟩
  · rcases stepTransaction_cases hcore with
      ⟨_, -, rfl⟩ | ⟨wx, b, hs, rfl⟩ | ⟨-, -, rfl⟩ | ⟨-, -, -, rfl⟩ | ⟨hs, hin, i, hd, -⟩
    · exact hinv'
    · exact hinv'.keyWaitPoll hs
    · exact hinv'.withFault _
    · exact hinv'.withFault _
    · exact hinv.of_runs ⟨hn, hs, (State.fetchInside_iff _).1 hin, hd⟩ h
  · exact hinv'.of_kept rfl rfl rfl rfl rfl hinv'.waits_at_key_wait
  · exact hinv'.of_kept rfl rfl rfl rfl rfl hinv'.waits_at_key_wait
  · exact State.Inv.of_init hfit hinit
  · exact hinv'

/-! ### The normal end (R125) -/

/-- A jump to PC changes nothing. -/
@[simp] theorem State.jump_pc_self (s : State) : s.jump s.pc = s := rfl

/-- An address inside memory is the target of the `nnn` field cut from it (R52). -/
theorem addrOf_setWidth {a : Word} (ha : a.toNat ≤ 0xFFF) : addrOf (a.setWidth 12) = a := by
  apply BitVec.eq_of_toNat_eq
  rw [addrOf, BitVec.toNat_setWidth_of_le (by decide), BitVec.toNat_setWidth]
  exact Nat.mod_eq_of_lt (by omega)

/-- Settles O18: the word at PC is the encoding of JP to PC, so the core runs that jump. -/
theorem normalEndIsAFixedPoint : Obligations.NormalEndIsAFixedPoint := by
  intro s ⟨hs, hpc, hword⟩ hn
  have htarget : addrOf (s.pc.setWidth 12) = s.pc := addrOf_setWidth (by omega)
  have hdecode : decode s.fetchWord = .ok (.jp (s.pc.setWidth 12)) := by
    have hencode : s.fetchWord = encode (.jp (s.pc.setWidth 12)) := by
      rw [hword]; exact congrArg (0x1000#16 ||| ·) htarget.symm
    rw [hencode, decode_encode]
  calc step s = exec (.jp (s.pc.setWidth 12)) s.takeTransaction := step_of_runs ⟨hn, hs, hpc, hdecode⟩
    _ = .next (s.takeTransaction.jump (addrOf (s.pc.setWidth 12))) := rfl
    _ = .next s.takeTransaction := by rw [htarget, ← State.takeTransaction_pc, State.jump_pc_self]

end Sys2Proof.Machine
end
